-- ==== Sys2Proof/Word.lean ====
section
/-! DEFINITION. Bytes, byte strings and the ASCII characters the rules name (00_scope.md R9, 30_encoding.md R53). -/

namespace Sys2Proof

/-- An unsigned 8-bit value (R9). -/
abbrev Byte := BitVec 8

/-- A finite list of bytes (R9). -/
abbrev Str := List Byte

namespace Chr

/-- `$` -/
abbrev dollar : Byte := 0x24
/-- `*` -/
abbrev star : Byte := 0x2A
/-- `,` -/
abbrev comma : Byte := 0x2C
/-- `-` -/
abbrev minus : Byte := 0x2D
/-- `.` -/
abbrev dot : Byte := 0x2E
/-- `0` -/
abbrev zero : Byte := 0x30
/-- carriage return -/
abbrev cr : Byte := 0x0D
/-- line feed -/
abbrev lf : Byte := 0x0A

end Chr

/-- The bytes of an ASCII text, as the rules write it in quotes (R9, R53). -/
def ascii (t : String) : Str := t.toList.map fun c => BitVec.ofNat 8 c.toNat

end Sys2Proof
end

