-- ==== Sys2Proof/Config.lean ====
section
/-! DEFINITION. What an implementation of the block fixes (00_scope.md R7, R8). The three OPEN parameters are opaque
constants: no proof can see a value of theirs. -/

namespace Sys2Proof

namespace Config

/-- N = P = 10, the capacity of both rings and the samples per report (R7, R8, D41). -/
abbrev ringSize : Nat := 10

/-- FRAME_CAP, the capacity of the input frame buffer in bytes (R7, D18). -/
abbrev frameCap : Nat := 1024

/-- MIN_LINE, the least length of a line that can validate (R7). -/
abbrev minLine : Nat := 10

end Config

/-- ROUND_TIES: where an exact half is rounded to (R75, D5). -/
inductive RoundTies
  | halfUp
  | halfEven
deriving DecidableEq, Repr

/-- The parameters of R7 that are not the same number for every block. "A model takes them as an argument": they are the
field `cfg` of the state, so that a claim over every state is a claim over every value of them. -/
structure Params where
  /-- TICKS_PER_SECOND, a positive integer (OPEN, D10) -/
  ticksPerSecond : Nat
  /-- TS_BITS, the width of a pulse timestamp (OPEN, D9) -/
  tsBits : Nat
  /-- ADC_BITS, the width of a direction sample code (OPEN, D8) -/
  adcBits : Nat
  /-- ROUND_TIES (default HALF_UP, D5) -/
  roundTies : RoundTies
  /-- AUTO_EMIT_MWV: does a report also emit an MWV sentence (default true, D16) -/
  autoEmitMwv : Bool
deriving DecidableEq, Repr

/-- The three OPEN parameters are positive integers (R7). -/
def Params.legal (p : Params) : Bool := decide (0 < p.ticksPerSecond) && decide (0 < p.tsBits) && decide (0 < p.adcBits)

namespace Config

/-- TICKS_PER_SECOND less one; the spec gives no value (N4, D10). -/
opaque ticksPerSecondLessOne : Nat
/-- TS_BITS less one; the spec gives no value (N4, D9). -/
opaque tsBitsLessOne : Nat
/-- ADC_BITS less one; the spec gives no value (N4, D8). -/
opaque adcBitsLessOne : Nat

/-- The block as built: the OPEN parameters are some positive integers, the decided ones have R7's values. -/
def params : Params where
  ticksPerSecond := ticksPerSecondLessOne + 1
  tsBits := tsBitsLessOne + 1
  adcBits := adcBitsLessOne + 1
  roundTies := .halfUp
  autoEmitMwv := true

end Config

end Sys2Proof
end

