-- ==== Sys2Proof/Syntax.lean ====
section
/-! DEFINITION. The instructions of spec/opcode_table.json, one constructor a row: nine transactions (30_encoding.md R48,
R49) and four sentences (R64). -/

namespace Sys2Proof

/-- A talker id, exactly 2 bytes by type (R49 (e), R104). -/
structure Talker where
  c1 : Byte
  c2 : Byte
deriving DecidableEq, Repr

/-- A verb, exactly 3 bytes by type (R49 (e), R104). -/
structure VerbBytes where
  v1 : Byte
  v2 : Byte
  v3 : Byte
deriving DecidableEq, Repr

/-- The talker's bytes in wire order. -/
def Talker.bytes (t : Talker) : Str := [t.c1, t.c2]

/-- The verb's bytes in wire order. -/
def VerbBytes.bytes (v : VerbBytes) : Str := [v.v1, v.v2, v.v3]

/-- The instruction set. A sentence row carries the talker and the field list that PROCESS_LINE hands to the verb's
parser (R106). -/
inductive Instr
  | reset
  | rxByte (b : Byte)
  | pulse (ts : Nat)
  | tick (code : Nat)
  | setCorr (n : BitVec 16)
  | getCorr
  | encode (talker : Talker) (verb : VerbBytes) (fields : List Str)
  | emitMwv (headingTenths : BitVec 16) (speed : Rat)
  | emitHdm (headingTenths : BitVec 16)
  | mwv (talker : Talker) (fields : List Str)
  | vtg (talker : Talker) (fields : List Str)
  | dpt (talker : Talker) (fields : List Str)
  | hdm (talker : Talker) (fields : List Str)
deriving DecidableEq, Repr

/-- One operand of a transaction record as it is issued (R47, R49). -/
inductive Operand
  | nat (v : Nat)
  | int (v : Int)
  | rat (v : Rat)
  | str (v : Str)
  | strs (v : List Str)
deriving DecidableEq, Repr

/-- A transaction as it is issued: the record `(op, operands)` with an 8-bit selector (R47). -/
structure Txn where
  op : Byte
  operands : List Operand
deriving DecidableEq, Repr

/-- The nine selectors that are not reserved (R48). -/
inductive Selector
  | reset | rxByte | pulse | tick | setCorr | getCorr | encode | emitMwv | emitHdm
deriving DecidableEq, Repr

/-- The four verbs of the verb map (R64). -/
inductive SentenceVerb
  | mwv | vtg | dpt | hdm
deriving DecidableEq, Repr

/-- A validated line, cut up (R104, R106). -/
structure Sentence where
  verb : SentenceVerb
  talker : Talker
  fields : List Str
deriving DecidableEq, Repr

/-- The ten rejections (60_exceptions.md R112). -/
inductive RejectCode
  | framingOverflow
  | badLength
  | badPrefix
  | badSuffix
  | checksumMismatch
  | unknownVerb
  | fieldCount
  | malformedNumeric
  | outOfRange
  | badUnit
deriving DecidableEq, Repr

end Sys2Proof
end

