-- ==== Sys2Proof/WellFormed.lean ====
section
/-! DEFINITION. When an instruction's operands are of the types 30_encoding.md R49 gives them, and when a sentence is one
that a line can carry (R55, R60, R66, 42_parser_framing.md R98). -/

namespace Sys2Proof

/-- `v` is a natural below `2^w`, the type `u w` of R9. Written by remainder, so that 0 is seen to fit a width whose value
is not known. -/
def fitsBits (w v : Nat) : Bool := v % 2 ^ w == v

/-- `s` does not hold the byte `c`. -/
def lacks (c : Byte) (s : Str) : Bool := s.all (· != c)

/-- The bytes of a field list when joined with commas. -/
def joinedLength (fields : List Str) : Nat := (fields.map List.length).sum + (fields.length - 1)

/-- A sentence that a line can carry: its body has at least one byte (R106), its fields are what the tokenizer can give
(at least one, none with a comma: R60), it holds no LF (a line never does: R94), and it is at most FRAME_CAP bytes long
(`$`, talker, verb, `*` and two hex digits are 9 of them). -/
def sentenceOk (talker : Talker) (fields : List Str) : Bool :=
  !fields.isEmpty && decide (0 < joinedLength fields) && fields.all (lacks Chr.comma) && fields.all (lacks Chr.lf) &&
    lacks Chr.lf talker.bytes && decide (joinedLength fields + 9 ≤ Config.frameCap)

/-- The operands are of their types (R49). The types that Lean's own types express (bytes, s16, u16, talker, verb) need no
check. -/
def Instr.wellFormed (p : Params) : Instr → Bool
  | .reset => true
  | .rxByte _ => true
  | .pulse ts => fitsBits p.tsBits ts
  | .tick code => fitsBits p.adcBits code
  | .setCorr _ => true
  | .getCorr => true
  | .encode _ _ _ => true
  | .emitMwv _ speed => decide (0 ≤ speed)
  | .emitHdm _ => true
  | .mwv talker fields => sentenceOk talker fields
  | .vtg talker fields => sentenceOk talker fields
  | .dpt talker fields => sentenceOk talker fields
  | .hdm talker fields => sentenceOk talker fields

end Sys2Proof
end

