-- ==== Sys2Proof/Decode.lean ====
section
/-! DEFINITION. The two encodings of 30_encoding.md: transactions (R47 to R52) and sentence lines (R54 to R66), each with its
decoder, total and rejecting by name, and after it its encoder. -/

namespace Sys2Proof

/-! ### Text primitives of the sentence encoding -/

/-- The checksum function: the exclusive or of all bytes, 0 for none (R56). -/
def xsum (s : Str) : Byte := s.foldl (· ^^^ ·) 0

/-- The value of a hex digit in either case; none for another byte (R57). -/
def hexval (c : Byte) : Option Nat :=
  let k := c.toNat
  if 0x30 ≤ k ∧ k ≤ 0x39 then some (k - 0x30)
  else if 0x41 ≤ k ∧ k ≤ 0x46 then some (k - 0x41 + 10)
  else if 0x61 ≤ k ∧ k ≤ 0x66 then some (k - 0x61 + 10)
  else none

/-- The lower-case hex digit of a value below 16 (R58). -/
def hexDigit (d : Nat) : Byte :=
  if d < 10 then BitVec.ofNat 8 (0x30 + d) else BitVec.ofNat 8 (0x61 + d - 10)

/-- HEX2: two lower-case hex digits, the more significant first (R58). -/
def hex2 (x : Byte) : Str := [hexDigit (x.toNat / 16), hexDigit (x.toNat % 16)]

/-- The tokenizer: cuts a body at every comma; k commas give k + 1 fields (R60). -/
def split : Str → List Str
  | [] => [[]]
  | b :: bs =>
    if b = Chr.comma then [] :: split bs
    else
      match split bs with
      | f :: fs => (b :: f) :: fs
      | [] => [[b]]

/-- The fields with a comma between each two (41_assembler.md R85). -/
def join : List Str → Str
  | [] => []
  | [f] => f
  | f :: g :: rest => f ++ Chr.comma :: join (g :: rest)

/-- The byte at position `i` of a line, counted from 0 (R9, R55). It is used only at positions the line has. -/
def byteAt (L : Str) (i : Nat) : Byte := L.getD i 0

/-- `s[a..b]`, both ends inclusive, empty when b < a (R9). -/
def slice (s : Str) (a b : Nat) : Str := (s.drop a).take (b + 1 - a)

/-- `L[1..2]` (R55, R104). -/
def lineTalker (L : Str) : Talker := ⟨byteAt L 1, byteAt L 2⟩

/-- `L[3..5]` (R55, R104). -/
def lineVerb (L : Str) : VerbBytes := ⟨byteAt L 3, byteAt L 4, byteAt L 5⟩

/-- The body `L[6..n-4]` (R55). -/
def lineBody (L : Str) : Str := slice L 6 (L.length - 4)

/-- The checksum region `L[1..n-4]` (R56). -/
def checksumRegion (L : Str) : Str := slice L 1 (L.length - 4)

/-- The byte that `*HH` at the line's end spells; none when the last 3 bytes are not `*` and two hex digits (R57, R102). -/
def checksumField (L : Str) : Option Byte :=
  let n := L.length
  if byteAt L (n - 3) = Chr.star then
    match hexval (byteAt L (n - 2)), hexval (byteAt L (n - 1)) with
    | some hi, some lo => some (BitVec.ofNat 8 (hi * 16 + lo))
    | _, _ => none
  else none

/-! ### Sentence lines -/

/-- The verb key as a 24-bit value (R64). -/
def verbKey (v : VerbBytes) : Nat := v.v1.toNat * 65536 + v.v2.toNat * 256 + v.v3.toNat

/-- The verb map of R64 (opcode_table.json, rows of format SENTENCE). -/
def SentenceVerb.key : SentenceVerb → Nat
  | .mwv => 0x4D5756
  | .vtg => 0x565447
  | .dpt => 0x445054
  | .hdm => 0x48444D

/-- The verb whose three bytes these are, all three equal and in this case (R64). -/
def verbOf (v : VerbBytes) : Option SentenceVerb :=
  let k := verbKey v
  if k = 0x4D5756 then some .mwv
  else if k = 0x565447 then some .vtg
  else if k = 0x445054 then some .dpt
  else if k = 0x48444D then some .hdm
  else none

/-- The bytes of a 24-bit verb key, most significant first (R64). -/
def verbBytesOfKey (k : Nat) : VerbBytes :=
  ⟨BitVec.ofNat 8 (k / 65536), BitVec.ofNat 8 (k / 256), BitVec.ofNat 8 k⟩

/-- The checks of PROCESS_LINE down to the verb, in the order of 43_parser_sentence.md R99 to R106; the first that fails
names its rejection. HDM is a row of the verb map without a parser, so it is recognised here and dropped when it runs
(R64, R65). -/
def decodeSentence (L : Str) : Except RejectCode Sentence :=
  if L.length < Config.minLine then .error .badLength
  else if byteAt L 0 ≠ Chr.dollar then .error .badPrefix
  else
    match checksumField L with
    | none => .error .badSuffix
    | some h =>
      if xsum (checksumRegion L) ≠ h then .error .checksumMismatch
      else
        match verbOf (lineVerb L) with
        | none => .error .unknownVerb
        | some v => .ok ⟨v, lineTalker L, split (lineBody L)⟩

/-- The instruction a cut-up line stands for. -/
def Sentence.toInstr (t : Sentence) : Instr :=
  match t.verb with
  | .mwv => .mwv t.talker t.fields
  | .vtg => .vtg t.talker t.fields
  | .dpt => .dpt t.talker t.fields
  | .hdm => .hdm t.talker t.fields

/-- `$`, the content, `*` and the content's checksum: a line without its terminator (R54, R56). -/
def wrapLine (content : Str) : Str := Chr.dollar :: (content ++ Chr.star :: hex2 (xsum content))

/-- The line of a sentence, with lower-case checksum digits (R54, R58). -/
def encodeSentence (t : Sentence) : Str :=
  wrapLine (t.talker.bytes ++ (verbBytesOfKey t.verb.key).bytes ++ join t.fields)

/-! ### Transactions -/

/-- The selector map (R48); 0x09 to 0xFF are reserved. -/
def selectorOf (op : Byte) : Option Selector :=
  match op.toNat with
  | 0x00 => some .reset
  | 0x01 => some .rxByte
  | 0x02 => some .pulse
  | 0x03 => some .tick
  | 0x04 => some .setCorr
  | 0x05 => some .getCorr
  | 0x06 => some .encode
  | 0x07 => some .emitMwv
  | 0x08 => some .emitHdm
  | _ => none

/-- The selector map read the other way (R48). -/
def Selector.op : Selector → Byte
  | .reset => 0x00
  | .rxByte => 0x01
  | .pulse => 0x02
  | .tick => 0x03
  | .setCorr => 0x04
  | .getCorr => 0x05
  | .encode => 0x06
  | .emitMwv => 0x07
  | .emitHdm => 0x08

/-- The integer is an s16 (R49 (d)). -/
def fitsS16 (n : Int) : Bool := decide (-32768 ≤ n) && decide (n ≤ 32767)

/-- An operand tuple read at the types R49 gives the selector; none when it is not of those types. -/
def decodeOperands (p : Params) : Selector → List Operand → Option Instr
  | .reset, [] => some .reset
  | .rxByte, [.nat b] => if fitsBits 8 b then some (.rxByte (BitVec.ofNat 8 b)) else none
  | .pulse, [.nat ts] => if fitsBits p.tsBits ts then some (.pulse ts) else none
  | .tick, [.nat code] => if fitsBits p.adcBits code then some (.tick code) else none
  | .setCorr, [.int n] => if fitsS16 n then some (.setCorr (BitVec.ofInt 16 n)) else none
  | .getCorr, [] => some .getCorr
  | .encode, [.str [c1, c2], .str [v1, v2, v3], .strs fields] => some (.encode ⟨c1, c2⟩ ⟨v1, v2, v3⟩ fields)
  | .emitMwv, [.nat t, .rat q] => if fitsBits 16 t && decide (0 ≤ q) then some (.emitMwv (BitVec.ofNat 16 t) q) else none
  | .emitHdm, [.nat t] => if fitsBits 16 t then some (.emitHdm (BitVec.ofNat 16 t)) else none
  | _, _ => none

/-- Why a transaction is none of the instructions. -/
inductive TxnError
  /-- the selector is 0x09 to 0xFF (R50) -/
  | reserved (op : Byte)
  /-- the operand tuple is not of the selector's types; R49 says such a one cannot be written down -/
  | operands (op : Byte)
deriving DecidableEq, Repr

/-- The decoder of transactions (R47 to R50). -/
def decodeTxn (p : Params) (t : Txn) : Except TxnError Instr :=
  match selectorOf t.op with
  | none => .error (.reserved t.op)
  | some sel =>
    match decodeOperands p sel t.operands with
    | some i => .ok i
    | none => .error (.operands t.op)

/-! ### Both encodings together -/

/-- What can reach the block as an instruction: a transaction record, or a completed line. -/
inductive Encoded
  | txn (t : Txn)
  | line (L : Str)
deriving DecidableEq, Repr

/-- Why an encoded instruction is refused or rejected. -/
inductive DecodeError
  | txn (e : TxnError)
  | line (code : RejectCode)
deriving DecidableEq, Repr

/-- The decoder: total, rejecting by name. -/
def decode (p : Params) : Encoded → Except DecodeError Instr
  | .txn t =>
    match decodeTxn p t with
    | .ok i => .ok i
    | .error e => .error (.txn e)
  | .line L =>
    match decodeSentence L with
    | .ok t => .ok t.toInstr
    | .error c => .error (.line c)

/-- The encoder, from R48, R49 and R54. -/
def encode : Instr → Encoded
  | .reset => .txn ⟨0x00, []⟩
  | .rxByte b => .txn ⟨0x01, [.nat b.toNat]⟩
  | .pulse ts => .txn ⟨0x02, [.nat ts]⟩
  | .tick code => .txn ⟨0x03, [.nat code]⟩
  | .setCorr n => .txn ⟨0x04, [.int n.toInt]⟩
  | .getCorr => .txn ⟨0x05, []⟩
  | .encode talker verb fields => .txn ⟨0x06, [.str talker.bytes, .str verb.bytes, .strs fields]⟩
  | .emitMwv t q => .txn ⟨0x07, [.nat t.toNat, .rat q]⟩
  | .emitHdm t => .txn ⟨0x08, [.nat t.toNat]⟩
  | .mwv talker fields => .line (encodeSentence ⟨.mwv, talker, fields⟩)
  | .vtg talker fields => .line (encodeSentence ⟨.vtg, talker, fields⟩)
  | .dpt talker fields => .line (encodeSentence ⟨.dpt, talker, fields⟩)
  | .hdm talker fields => .line (encodeSentence ⟨.hdm, talker, fields⟩)

/-! ### Pseudo-transactions (R52) -/

/-- `RX_BYTE b` as it is issued. -/
def rxByteTxn (b : Byte) : Txn := ⟨0x01, [.nat b.toNat]⟩

/-- RX_CHUNK: one RX_BYTE for each byte, in order (R52 (a)). -/
def rxChunk (s : Str) : List Txn := s.map rxByteTxn

/-- RX_SENTENCE: the chunk with CR LF after it (R52 (b)). -/
def rxSentence (s : Str) : List Txn := rxChunk (s ++ [Chr.cr, Chr.lf])

/-- PULSES: one PULSE for each timestamp, in order (R52 (c)). -/
def pulses (ts : List Nat) : List Txn := ts.map fun t => ⟨0x02, [.nat t]⟩

/-- TICKS c x k: k copies of TICK c (R52 (d)). -/
def ticks (code k : Nat) : List Txn := List.replicate k ⟨0x03, [.nat code]⟩

/-! ### The opcode table's words -/

/-- The operand tuple of zeros of a selector: what the table's 8-bit word leaves out. -/
def zeroOperands : Selector → List Operand
  | .reset => []
  | .rxByte => [.nat 0]
  | .pulse => [.nat 0]
  | .tick => [.nat 0]
  | .setCorr => [.int 0]
  | .getCorr => []
  | .encode => [.str [0, 0], .str [0, 0, 0], .strs []]
  | .emitMwv => [.nat 0, .rat 0]
  | .emitHdm => [.nat 0]

/-- A row of format TXN: the word is the selector, the operands are zeros. -/
def tableTxn (w : Nat) : Txn :=
  let op := BitVec.ofNat 8 w
  match selectorOf op with
  | some sel => ⟨op, zeroOperands sel⟩
  | none => ⟨op, []⟩

/-- A row of format SENTENCE: the word is the verb key (R64); the line around it has a talker of two zero bytes and the body
`,`, the shortest line that can validate (41_assembler.md R84 (a)), with its checksum. -/
def tableLine (w : Nat) : Str := wrapLine ([0, 0] ++ (verbBytesOfKey w).bytes ++ [Chr.comma])

/-- A table row's word: 8 bits are a selector, more are a verb key. -/
def tableEncoded (nbits w : Nat) : Encoded := if nbits ≤ 8 then .txn (tableTxn w) else .line (tableLine w)

/-- The instruction the decoder reads from a table row's word. -/
def decodeTableWord (nbits w : Nat) : Option Instr :=
  match decode Config.params (tableEncoded nbits w) with
  | .ok i => some i
  | .error _ => none

end Sys2Proof
end

