-- ==== Sys2Proof/Machine/State.lean ====
section
/-! DEFINITION. The state of the block (10_state.md), its output events, and the ways a step can stop. -/

namespace Sys2Proof
namespace Machine

/-- The block has no fault: no rule stops it (60_exceptions.md R113, R118, R119). No constructor. -/
inductive Fault
deriving DecidableEq, Repr

/-- Why a step is refused. -/
inductive Refusal
  /-- exec, for an instruction that has no meaning yet. Safe. -/
  | notModelled (mnemonic : String)
  /-- The decoding of an issued transaction, when its operand tuple is not of the types that 30_encoding.md R49 gives its
  selector: "an operand of another length cannot be written down". Safe. -/
  | operandsNotOfType (op : Byte)
deriving DecidableEq, Repr

/-- The four sources of transactions (20_memory.md R38). -/
inductive Source
  | pulse
  | timer
  | serial
  | host
deriving DecidableEq, Repr

/-- The events of the output history (R27). -/
inductive Event
  /-- a WindReading: heading in tenths of a degree, speed in knots -/
  | reading (headingTenths : Nat) (speedKn : Rat)
  /-- one whole sentence with its CR LF -/
  | tx (bytes : Str)
  /-- the CORR register -/
  | corrVal (value : Nat)
  /-- a parsed MWV -/
  | wind (talker : Talker) (angleDeg : Int) (speedKn : Rat)
  /-- a parsed VTG -/
  | cogsog (talker : Talker) (trueCourse magCourse sog : Rat)
  /-- a parsed DPT -/
  | depth (talker : Talker) (depth offset : Rat)
  /-- a rejected or ignored line, or a discarded byte -/
  | reject (code : RejectCode)
  /-- a transaction with a reserved selector -/
  | refused (op : Byte)
deriving DecidableEq, Repr

open Config in
/-- The record S of R13 (fb to corr), the output history, and the model's own fields: what the sources have issued, whose
turn is next, and the values the block is built with. -/
structure State where
  /-- FB, the input frame buffer (R17) -/
  fb : Str
  /-- DR, the direction sample ring (R19) -/
  dr : Vector Nat ringSize
  /-- DI, the write index of DR (R20) -/
  di : Fin ringSize
  /-- PR, the pulse timestamp ring (R21) -/
  pr : Vector Nat ringSize
  /-- PI, the write index of PR (R22) -/
  pi : Fin ringSize
  /-- CORR, the degrees correction, bits [8:0] (R23) -/
  corr : BitVec 9
  /-- OUT, the output history; no transaction reads it (R26) -/
  out : List Event
  /-- issued by the pulse interrupt and not yet taken, oldest first (20_memory.md R38 (a), R39) -/
  pulseQ : List Txn
  /-- issued by the 100 ms timer and not yet taken (R38 (b)) -/
  timerQ : List Txn
  /-- issued by the serial receiver and not yet taken (R38 (c)) -/
  serialQ : List Txn
  /-- issued by the host and not yet taken (R38 (d)) -/
  hostQ : List Txn
  /-- whose transaction is taken next, and so on: any interleaving of the four (R39, R117) -/
  schedule : List Source
  /-- the values the block is built with (00_scope.md R7); no transaction writes them -/
  cfg : Params
deriving DecidableEq, Repr

/-- CORR_RESET (00_scope.md R7, D14). -/
def corrReset : BitVec 9 := 0

/-- Power-on: the state that RESET gives, with OUT empty (70_reset_and_hazards.md R129, R130) and nothing issued. -/
def State.reset : State where
  fb := []
  dr := Vector.replicate Config.ringSize 0
  di := 0
  pr := Vector.replicate Config.ringSize 0
  pi := 0
  corr := corrReset
  out := []
  pulseQ := []
  timerQ := []
  serialQ := []
  hostQ := []
  schedule := []
  cfg := Config.params

end Machine
end Sys2Proof
end

