-- ==== Sys2Proof/Machine/Ops.lean ====
section
/-! DEFINITION. The named operations over the state: events, rejections and refusals, the frame buffer, the two rings, the
correction register, RESET's writes and the sources' queues. Everything an instruction changes, it changes through these. -/

namespace Sys2Proof
namespace Machine

/-! ### Events (10_state.md R26, 00_scope.md R10) -/

/-- `emit(ev)`: appends an event at the end of OUT. -/
def emit (ev : Event) (s : State) : State := { s with out := s.out ++ [ev] }

/-- `raise Reject(code)`, the block's only exception: it emits REJECT(code) and changes nothing else. No cause register, no
saved position, no handler; and so there is no return from it (60_exceptions.md R113, R118, R119). -/
def reject (code : RejectCode) (s : State) : State := emit (.reject code) s

/-- The outcome of a line: its event, or the rejection raised (43_parser_sentence.md R110). -/
def conclude (verdict : Except RejectCode Event) (s : State) : State :=
  match verdict with
  | .ok ev => emit ev s
  | .error code => reject code s

/-- A reserved selector: recorded as REFUSED(op), no other effect (30_encoding.md R50, 60_exceptions.md R115). -/
def refuseReserved (op : Byte) (s : State) : State := emit (.refused op) s

/-! ### The frame buffer (10_state.md R17) -/

/-- `FB <- []` -/
def clearFrame (s : State) : State := { s with fb := [] }

/-- `FB <- FB[1 .. |FB|-1]` -/
def dropOldestByte (s : State) : State := { s with fb := s.fb.tail }

/-- `FB <- FB ++ [b]` -/
def appendByte (b : Byte) (s : State) : State := { s with fb := s.fb ++ [b] }

/-! ### The rings (R19 to R22) -/

/-- `(i + 1) mod N` -/
def ringNext (i : Fin Config.ringSize) : Fin Config.ringSize :=
  ⟨(i.val + 1) % Config.ringSize, Nat.mod_lt _ (by decide)⟩

/-- `(i + P - 1) mod P` -/
def ringPrev (i : Fin Config.ringSize) : Fin Config.ringSize :=
  ⟨(i.val + Config.ringSize - 1) % Config.ringSize, Nat.mod_lt _ (by decide)⟩

/-- `DR[DI] <- code; DI <- (DI + 1) mod N` -/
def writeSample (code : Nat) (s : State) : State :=
  { s with dr := s.dr.set s.di.val code s.di.isLt, di := ringNext s.di }

/-- `PR[PI] <- ts; PI <- (PI + 1) mod P` -/
def writePulse (ts : Nat) (s : State) : State :=
  { s with pr := s.pr.set s.pi.val ts s.pi.isLt, pi := ringNext s.pi }

/-- `PR[PI]`, the entry the next write will overwrite (40_sampler.md R77). -/
def oldestPulse (s : State) : Nat := s.pr[s.pi]

/-- `PR[(PI + P - 1) mod P]`, the most recently written entry (R77). -/
def newestPulse (s : State) : Nat := s.pr[ringPrev s.pi]

/-! ### The correction register (R23) -/

/-- `CORR <- v` -/
def writeCorr (v : Nat) (s : State) : State := { s with corr := BitVec.ofNat 9 v }

/-! ### RESET (70_reset_and_hazards.md R129) -/

/-- Every part of S to its reset value; OUT, the queues and the configuration stay. -/
def resetBlock (s : State) : State :=
  { s with
    fb := []
    dr := Vector.replicate Config.ringSize 0
    di := 0
    pr := Vector.replicate Config.ringSize 0
    pi := 0
    corr := corrReset }

/-! ### The sources (20_memory.md R38, R39) -/

/-- What a source has issued and the block has not yet taken. -/
def pending (src : Source) (s : State) : List Txn :=
  match src with
  | .pulse => s.pulseQ
  | .timer => s.timerQ
  | .serial => s.serialQ
  | .host => s.hostQ

/-- The source's queue, written. -/
def setPending (src : Source) (q : List Txn) (s : State) : State :=
  match src with
  | .pulse => { s with pulseQ := q }
  | .timer => { s with timerQ := q }
  | .serial => { s with serialQ := q }
  | .host => { s with hostQ := q }

/-- The turns to come, written. -/
def setSchedule (turns : List Source) (s : State) : State := { s with schedule := turns }

/-- The source that issues a selector (R38). No transaction checks it (60_exceptions.md R123). -/
def usualSource (op : Byte) : Source :=
  match selectorOf op with
  | some .pulse => .pulse
  | some .tick => .timer
  | some .rxByte => .serial
  | _ => .host

/-- A source issues a transaction: it goes behind what the source has issued already, and so does its turn (R39). -/
def issue (src : Source) (t : Txn) (s : State) : State :=
  setSchedule (s.schedule ++ [src]) (setPending src (pending src s ++ [t]) s)

/-- The transaction is the very next one the block takes. -/
def issueFirst (src : Source) (t : Txn) (s : State) : State :=
  setSchedule (src :: s.schedule) (setPending src (t :: pending src s) s)

/-- The next transaction in the total order and the state with it taken from its source's queue; none when no turn is left,
or when the source whose turn it is has issued nothing (R39; idle: 60_exceptions.md R128). -/
def nextInput (s : State) : Option Txn × State :=
  match s.schedule with
  | [] => (none, s)
  | src :: turns =>
    match pending src s with
    | [] => (none, setSchedule turns s)
    | t :: q => (some t, setSchedule turns (setPending src q s))

end Machine
end Sys2Proof
end

