-- ==== Sys2Proof/Machine/Operands.lean ====
section
/-! DEFINITION. Numbers in the text of a sentence and out of it: the NUM grammar (30_encoding.md R62, R63), rounding
(40_sampler.md R75), number formatting (41_assembler.md R86, R87), and the constant factors (00_scope.md R7). -/

namespace Sys2Proof
namespace Machine

/-! ### Constants (R7, R25). Each literal is normative on its own path (90_conflicts.md C4). -/

/-- K_CAL, pulses per second to knots: 2.25 * 0.868976. -/
def kCal : Rat := 1955196 / 1000000
/-- K_MPH, the MWV unit M. -/
def kMph : Rat := 868976242 / 1000000000
/-- K_KPH, the MWV unit K. -/
def kKph : Rat := 539956803 / 1000000000
/-- K_KN, the MWV unit N. -/
def kKn : Rat := 1

/-- TALKER_OUT, "II". -/
def talkerOut : Talker := ⟨0x49, 0x49⟩

/-! ### Numeric fields read (R62, R63) -/

/-- The byte is a decimal digit. -/
def isDigit (c : Byte) : Bool := decide (0x30 ≤ c.toNat) && decide (c.toNat ≤ 0x39)

/-- The value of a string of digits, 0 for none. -/
def digitsValue (ds : Str) : Nat := ds.foldl (fun a d => a * 10 + (d.toNat - 0x30)) 0

/-- A field that matches NUM, by its parts: the sign, I, F and |F| of R62. -/
structure NumText where
  negative : Bool
  whole : Nat
  frac : Nat
  fracDigits : Nat
deriving DecidableEq, Repr

/-- What follows the sign: `DIGITS [ "." [ DIGITS ] ]` or `"." DIGITS` (R62). -/
def parseUnsigned (negative : Bool) (body : Str) : Option NumText :=
  let ints := body.takeWhile isDigit
  match body.dropWhile isDigit with
  | [] => if ints.isEmpty then none else some ⟨negative, digitsValue ints, 0, 0⟩
  | c :: frac =>
    if c = Chr.dot ∧ frac.all isDigit = true ∧ ¬(ints.isEmpty = true ∧ frac.isEmpty = true) then
      some ⟨negative, digitsValue ints, digitsValue frac, frac.length⟩
    else none

/-- The NUM grammar; none for a malformed numeric field (R62). -/
def parseNum (f : Str) : Option NumText :=
  match f with
  | [] => none
  | c :: rest => if c = Chr.minus then parseUnsigned true rest else parseUnsigned false f

/-- The sign, -1 or +1 (R62). -/
def NumText.sign (n : NumText) : Int := if n.negative then -1 else 1

/-- `num(f) = sign * (I + F / 10^|F|)` (R62). -/
def NumText.value (n : NumText) : Rat := (n.sign : Rat) * ((n.whole : Rat) + (n.frac : Rat) / ((10 ^ n.fracDigits : Nat) : Rat))

/-- `trunc(f) = sign * I` (R63). -/
def NumText.trunc (n : NumText) : Int := n.sign * (n.whole : Int)

/-- Field `i` read as a number; none when it does not match NUM. -/
def numField (fields : List Str) (i : Nat) : Option NumText := parseNum (fields.getD i [])

/-! ### Rounding and formatting (R75, R86, R87) -/

/-- ROUND: the nearest integer to a rational that is not negative, ties by ROUND_TIES (R75). -/
def roundQ (ties : RoundTies) (x : Rat) : Nat :=
  match ties with
  | .halfUp => (x + 1 / 2).floor.toNat
  | .halfEven =>
    let below := x.floor
    let part := x - (below : Rat)
    if part < 1 / 2 then below.toNat
    else if 1 / 2 < part then (below + 1).toNat
    else if below % 2 = 0 then below.toNat
    else (below + 1).toNat

/-- DIGIT(d) (R86). -/
def digitByte (d : Nat) : Byte := BitVec.ofNat 8 (0x30 + d)

/-- The digits of `k`, the last `fuel + 1` of them. -/
def decDigits : Nat → Nat → Str
  | 0, k => [digitByte (k % 10)]
  | fuel + 1, k => if k < 10 then [digitByte k] else decDigits fuel (k / 10) ++ [digitByte (k % 10)]

/-- DEC(k): decimal digits, most significant first, no leading zeros, DEC(0) = "0" (R86). -/
def dec (k : Nat) : Str := decDigits k k

/-- FMT_T(t): a heading held in tenths, with one decimal (R87). -/
def fmtTenths (t : Nat) : Str := dec (t / 10) ++ [Chr.dot, digitByte (t % 10)]

/-- FMT1(q): fixed one decimal place (R86). -/
def fmt1 (ties : RoundTies) (q : Rat) : Str := fmtTenths (roundQ ties (q * 10))

end Machine
end Sys2Proof
end

