-- ==== Sys2Proof/Machine/Assembler.lean ====
section
/-! DEFINITION. The ASSEMBLER (41_assembler.md): ENCODE, EMIT_MWV and EMIT_HDM. It writes no state but OUT. -/

namespace Sys2Proof
namespace Machine

/-- ENCODE_OUT: `"$" ++ C ++ "*" ++ HEX2(xsum(C)) ++ "\r\n"` with `C = talker ++ verb ++ "," ++ join(fields)` (R84, R85). -/
def encodeOut (talker : Talker) (verb : VerbBytes) (fields : List Str) : Str :=
  wrapLine (talker.bytes ++ verb.bytes ++ Chr.comma :: join fields) ++ [Chr.cr, Chr.lf]

/-- MWV_SENTENCE(t, s) (R88). -/
def mwvSentence (ties : RoundTies) (headingTenths : Nat) (speed : Rat) : Str :=
  encodeOut talkerOut (verbBytesOfKey (SentenceVerb.key .mwv))
    [fmtTenths headingTenths, ascii "R", fmt1 ties speed, ascii "N", ascii "A"]

/-- The HDM sentence of R89. -/
def hdmSentence (headingTenths : Nat) : Str :=
  encodeOut talkerOut (verbBytesOfKey (SentenceVerb.key .hdm)) [fmtTenths headingTenths, ascii "M"]

/-- ENCODE (R84): one TX event, the field bytes copied unchecked. -/
def execEncode (talker : Talker) (verb : VerbBytes) (fields : List Str) (s : State) : Host.Outcome State Fault Refusal :=
  .next (emit (.tx (encodeOut talker verb fields)) s)

/-- EMIT_MWV (R88); the heading is not range-checked. -/
def execEmitMwv (headingTenths : BitVec 16) (speed : Rat) (s : State) : Host.Outcome State Fault Refusal :=
  .next (emit (.tx (mwvSentence s.cfg.roundTies headingTenths.toNat speed)) s)

/-- EMIT_HDM (R89); the heading is the host's, not range-checked. -/
def execEmitHdm (headingTenths : BitVec 16) (s : State) : Host.Outcome State Fault Refusal :=
  .next (emit (.tx (hdmSentence headingTenths.toNat)) s)

end Machine
end Sys2Proof
end

