-- ==== Sys2Proof/Machine/Sentences.lean ====
section
/-! DEFINITION. The verb parsers (43_parser_sentence.md R107 to R109), the registry, and the four sentences. -/

namespace Sys2Proof
namespace Machine

/-- The factor of an MWV unit field, matched exactly (R107). -/
def unitFactor (unit : Str) : Option Rat :=
  if unit = ascii "M" then some kMph
  else if unit = ascii "K" then some kKph
  else if unit = ascii "N" then some kKn
  else none

/-- PARSE_MWV (R107). -/
def parseMwv (talker : Talker) (fields : List Str) : Except RejectCode Event :=
  if fields.length ≠ 6 then .error .fieldCount
  else
    match numField fields 1 with
    | none => .error .malformedNumeric
    | some angle =>
      match numField fields 3 with
      | none => .error .malformedNumeric
      | some v =>
        match unitFactor (fields.getD 4 []) with
        | none => .error .badUnit
        | some k => .ok (.wind talker angle.trunc (v.value * k))

/-- A VTG course: a number in [0, 360], both ends allowed (R108, 90_conflicts.md C2). -/
def courseField (fields : List Str) (i : Nat) : Except RejectCode Rat :=
  match numField fields i with
  | none => .error .malformedNumeric
  | some n => if n.value < 0 ∨ 360 < n.value then .error .outOfRange else .ok n.value

/-- PARSE_VTG (R108). -/
def parseVtg (talker : Talker) (fields : List Str) : Except RejectCode Event :=
  if fields.length < 6 then .error .fieldCount
  else
    match courseField fields 1 with
    | .error c => .error c
    | .ok trueCourse =>
      match courseField fields 3 with
      | .error c => .error c
      | .ok magCourse =>
        match numField fields 5 with
        | none => .error .malformedNumeric
        | some sog => .ok (.cogsog talker trueCourse magCourse sog.value)

/-- PARSE_DPT; the offset field is never read, the offset is always 0 (R109). -/
def parseDpt (talker : Talker) (fields : List Str) : Except RejectCode Event :=
  if fields.length < 2 then .error .fieldCount
  else
    match numField fields 1 with
    | none => .error .malformedNumeric
    | some d => .ok (.depth talker d.value 0)

/-- REG applied: the constant map from a verb to its parser (10_state.md R24, 30_encoding.md R64). HDM is no key of it, so a
received HDM sentence is dropped (R65, R105). -/
def applyVerb (v : SentenceVerb) (talker : Talker) (fields : List Str) : Except RejectCode Event :=
  match v with
  | .mwv => parseMwv talker fields
  | .vtg => parseVtg talker fields
  | .dpt => parseDpt talker fields
  | .hdm => .error .unknownVerb

/-- A received MWV sentence (R106, R107). -/
def execMwv (talker : Talker) (fields : List Str) (s : State) : Host.Outcome State Fault Refusal :=
  .next (conclude (applyVerb .mwv talker fields) s)

/-- A received VTG sentence (R106, R108). -/
def execVtg (talker : Talker) (fields : List Str) (s : State) : Host.Outcome State Fault Refusal :=
  .next (conclude (applyVerb .vtg talker fields) s)

/-- A received DPT sentence (R106, R109). -/
def execDpt (talker : Talker) (fields : List Str) (s : State) : Host.Outcome State Fault Refusal :=
  .next (conclude (applyVerb .dpt talker fields) s)

/-- A received HDM sentence: dropped as an unknown verb, not an error (R65, R105). -/
def execHdm (talker : Talker) (fields : List Str) (s : State) : Host.Outcome State Fault Refusal :=
  .next (conclude (applyVerb .hdm talker fields) s)

end Machine
end Sys2Proof
end

