-- ==== Sys2Proof/Machine/Framing.lean ====
section
/-! DEFINITION. RX_BYTE: line framing (42_parser_framing.md R92 to R98), and PROCESS_LINE (43_parser_sentence.md R99 to R106),
which it runs on each completed line. -/

namespace Sys2Proof
namespace Machine

/-- The line that an LF completes: FB less one trailing CR (R94, R96). -/
def completedLine (fb : Str) : Str := if fb.getLast? = some Chr.cr then fb.dropLast else fb

/-- A byte other than LF: appended, after the oldest byte is discarded with a rejection when FB is full (R93). -/
def receiveByte (b : Byte) (s : State) : State :=
  if s.fb.length = Config.frameCap then appendByte b (reject .framingOverflow (dropOldestByte s))
  else appendByte b s

/-- PROCESS_LINE(L): the checks of R99, then the verb's parser. -/
def processLine (L : Str) (s : State) : Host.Outcome State Fault Refusal :=
  match decodeSentence L with
  | .error code => .next (reject code s)
  | .ok t =>
    match t.verb with
    | .mwv => execMwv t.talker t.fields s
    | .vtg => execVtg t.talker t.fields s
    | .dpt => execDpt t.talker t.fields s
    | .hdm => execHdm t.talker t.fields s

/-- RX_BYTE delivers one received byte to the PARSER (R92). FB is emptied before PROCESS_LINE runs (R95). -/
def execRxByte (b : Byte) (s : State) : Host.Outcome State Fault Refusal :=
  if b = Chr.lf then processLine (completedLine s.fb) (clearFrame s) else .next (receiveByte b s)

end Machine
end Sys2Proof
end

