-- ==== Sys2Proof/Machine/Sampler.lean ====
section
/-! DEFINITION. The SAMPLER (40_sampler.md): PULSE, TICK with its report, SET_CORR, GET_CORR. -/

namespace Sys2Proof
namespace Machine

/-! ### The report's steps (R74 to R79) -/

/-- Step 1: the arithmetic mean of the analog values in the ring (R74). -/
def directionMean (s : State) : Rat := (s.dr.toList.sum : Rat) / ((Config.ringSize * 2 ^ s.cfg.adcBits : Nat) : Rat)

/-- Step 2: `raw10 = ROUND(mean * 3600) mod 3600` (R75). -/
def rawHeading (s : State) : Nat := roundQ s.cfg.roundTies (directionMean s * 3600) % 3600

/-- Step 3: `deg10 = (raw10 + CORR * 10) mod 3600` (R76). -/
def reportHeading (s : State) : Nat := (rawHeading s + s.corr.toNat * 10) % 3600

/-- The ticks spanned: `(newest - oldest) mod 2^TS_BITS` (R78). -/
def pulseSpan (s : State) : Nat := (((newestPulse s : Int) - (oldestPulse s : Int)) % ((2 ^ s.cfg.tsBits : Nat) : Int)).toNat

/-- Steps 4 and 5: the speed in knots from the oldest and the newest timestamp; a 0 in the oldest slot is the sentinel
(R77, R78). -/
def reportSpeed (s : State) : Rat :=
  if oldestPulse s = 0 then 0
  else if pulseSpan s = 0 then 0
  else (((Config.ringSize - 1) * s.cfg.ticksPerSecond : Nat) : Rat) * kCal / (pulseSpan s : Rat)

/-- Step 6: READING, and when AUTO_EMIT_MWV the MWV sentence after it (R79). -/
def report (s : State) : State :=
  let heading := reportHeading s
  let speed := reportSpeed s
  let told := emit (.reading heading speed) s
  if s.cfg.autoEmitMwv then emit (.tx (mwvSentence s.cfg.roundTies heading speed)) told else told

/-! ### The transactions -/

/-- PULSE records one speed-sensor pulse (R71). -/
def execPulse (ts : Nat) (s : State) : Host.Outcome State Fault Refusal := .next (writePulse ts s)

/-- TICK stores one direction sample; when DI wraps to 0 the report runs, on the sample just written too (R72, R73). -/
def execTick (code : Nat) (s : State) : Host.Outcome State Fault Refusal :=
  let stored := writeSample code s
  .next (if stored.di = 0 then report stored else stored)

/-- SET_CORR: `CORR <- n mod 360`, Euclidean (R80). -/
def execSetCorr (n : BitVec 16) (s : State) : Host.Outcome State Fault Refusal :=
  .next (writeCorr (n.toInt % 360).toNat s)

/-- GET_CORR: `emit(CORR_VAL(CORR))` (R81). -/
def execGetCorr (s : State) : Host.Outcome State Fault Refusal := .next (emit (.corrVal s.corr.toNat) s)

end Machine
end Sys2Proof
end

