-- ==== Sys2Proof/Machine/System.lean ====
section
/-! DEFINITION. RESET (70_reset_and_hazards.md R129). -/

namespace Sys2Proof
namespace Machine

/-- RESET puts the block in its initial state; it emits nothing and does not clear OUT (R129). -/
def execReset (s : State) : Host.Outcome State Fault Refusal := .next (resetBlock s)

end Machine
end Sys2Proof
end

