-- ==== Sys2Proof/Machine/Dispatch.lean ====
section
/-! DEFINITION. One arm per instruction. -/

namespace Sys2Proof
namespace Machine

def exec (i : Instr) (s : State) : Host.Outcome State Fault Refusal :=
  match i with
  | .reset => Sys2Proof.Machine.execReset s
  | .rxByte b => Sys2Proof.Machine.execRxByte b s
  | .pulse ts => Sys2Proof.Machine.execPulse ts s
  | .tick code => Sys2Proof.Machine.execTick code s
  | .setCorr n => Sys2Proof.Machine.execSetCorr n s
  | .getCorr => Sys2Proof.Machine.execGetCorr s
  | .encode talker verb fields => Sys2Proof.Machine.execEncode talker verb fields s
  | .emitMwv headingTenths speed => Sys2Proof.Machine.execEmitMwv headingTenths speed s
  | .emitHdm headingTenths => Sys2Proof.Machine.execEmitHdm headingTenths s
  | .mwv talker fields => Sys2Proof.Machine.execMwv talker fields s
  | .vtg talker fields => Sys2Proof.Machine.execVtg talker fields s
  | .dpt talker fields => Sys2Proof.Machine.execDpt talker fields s
  | .hdm talker fields => Sys2Proof.Machine.execHdm talker fields s

end Machine
end Sys2Proof
end

