-- ==== Sys2Proof/Machine/Transaction.lean ====
section
/-! DEFINITION. Running an issued transaction, and a list of them in one total order (20_memory.md R37, R39, R40). -/

namespace Sys2Proof
namespace Machine

/-- One issued transaction: decoded, then executed as a whole. A reserved selector is recorded and the block goes on (R50);
an operand tuple that is not of its types is refused by name (30_encoding.md R49). -/
def execTxn (t : Txn) (s : State) : Host.Outcome State Fault Refusal :=
  match decodeTxn s.cfg t with
  | .ok i => exec i s
  | .error (.reserved op) => .next (refuseReserved op s)
  | .error (.operands op) => .refused (.operandsNotOfType op)

/-- The transactions of a program, top to bottom (30_encoding.md R51). -/
def runTxns : List Txn → State → Host.Outcome State Fault Refusal
  | [], s => .next s
  | t :: rest, s =>
    match execTxn t s with
    | .next s' => runTxns rest s'
    | .fault r => .fault r
    | .refused r => .refused r

/-- Every transaction of a list issued by its source, in that order (20_memory.md R38, R39). -/
def issueAll : List (Source × Txn) → State → State
  | [], s => s
  | (src, t) :: rest, s => issueAll rest (issue src t s)

end Machine
end Sys2Proof
end

