-- ==== Sys2Proof/Machine/Step.lean ====
section
/-! DEFINITION. One step: the next transaction in the total order is taken and executed (30_encoding.md R47, 20_memory.md R39).
Between transactions the block is idle and keeps its state (60_exceptions.md R128). -/

namespace Sys2Proof
namespace Machine

/-- One step of the block. -/
def step (s : State) : Host.Outcome State Fault Refusal :=
  match nextInput s with
  | (none, s') => .next s'
  | (some t, s') => execTxn t s'

/-- `s` with a table row's instruction as the very next one. A transaction is put first in its source's queue and its turn
first in the schedule. A sentence's line is put in FB and the LF that completes it is the next transaction. -/
def State.withFetchWord (s : State) (nbits w : Nat) : State :=
  match tableEncoded nbits w with
  | .txn t => issueFirst (usualSource t.op) t s
  | .line L => issueFirst .serial (rxByteTxn Chr.lf) { s with fb := L }

end Machine
end Sys2Proof
end

