-- ==== Sys2Proof/Machine/Flags.lean ====
section
/-! DEFINITION. The block has no status flags, condition codes or predicates (10_state.md R16): a line's outcome is the
event it emits. What stands in their place is the numbering of the rejections (60_exceptions.md R112). -/

namespace Sys2Proof
namespace Machine

/-- The code of a rejection (R112); 0x00 and 0x0B to 0xFF are never emitted. -/
def rejectNumber : RejectCode → Byte
  | .framingOverflow => 0x01
  | .badLength => 0x02
  | .badPrefix => 0x03
  | .badSuffix => 0x04
  | .checksumMismatch => 0x05
  | .unknownVerb => 0x06
  | .fieldCount => 0x07
  | .malformedNumeric => 0x08
  | .outOfRange => 0x09
  | .badUnit => 0x0A

end Machine
end Sys2Proof
end

