-- ==== Sys2Proof/Safety.lean ====
section
/-! DEFINITION. What claims about the block speak of: its own record S, its invariant, legal events, legal inputs, and the
configurations that transactions leave alone. -/

namespace Sys2Proof

/-- The transaction is one that can be written down: a reserved selector with any operands, or a selector with operands of
its types (30_encoding.md R49, R50). -/
def Txn.legal (p : Params) (t : Txn) : Bool :=
  match decodeTxn p t with
  | .ok _ => true
  | .error (.reserved _) => true
  | .error (.operands _) => false

/-- The timestamp of a PULSE. -/
def Txn.pulseStamp (t : Txn) : Option Nat :=
  match t.operands with
  | [.nat ts] => if t.op = 0x02 then some ts else none
  | _ => none

/-- The code of a TICK. -/
def Txn.tickCode (t : Txn) : Option Nat :=
  match t.operands with
  | [.nat code] => if t.op = 0x03 then some code else none
  | _ => none

namespace Machine

/-- The record S of 10_state.md R13, without the observation and the model's own fields. -/
structure Block where
  fb : Str
  dr : Vector Nat Config.ringSize
  di : Fin Config.ringSize
  pr : Vector Nat Config.ringSize
  pi : Fin Config.ringSize
  corr : BitVec 9
deriving DecidableEq, Repr

/-- The block's own state. -/
def State.block (s : State) : Block := ⟨s.fb, s.dr, s.di, s.pr, s.pi, s.corr⟩

/-- The fields of an event are in the ranges that R27 gives: a heading below 3600, a speed not negative, a correction below
360, a sentence that begins with `$` and ends with CR LF (R32, R54), a reserved selector from 0x09 on (R50). -/
def Event.legal : Event → Bool
  | .reading h v => decide (h < 3600) && decide (0 ≤ v)
  | .tx bytes => (bytes.head? == some Chr.dollar) && (bytes.drop (bytes.length - 2) == [Chr.cr, Chr.lf])
  | .corrVal v => decide (v < 360)
  | .wind _ _ _ => true
  | .cogsog _ t m _ => decide (0 ≤ t) && decide (t ≤ 360) && decide (0 ≤ m) && decide (m ≤ 360)
  | .depth _ _ offset => decide (offset = 0)
  | .reject _ => true
  | .refused op => decide (9 ≤ op.toNat)

/-- The invariant of S: FB holds no LF and at most FRAME_CAP bytes (R18), the rings hold codes and timestamps of their
widths (R19, R21), CORR is a legal value (R23), OUT holds legal events (R27), and the OPEN parameters are positive (R7). -/
abbrev State.Inv (s : State) : Prop :=
  (lacks Chr.lf s.fb = true ∧ s.fb.length ≤ Config.frameCap) ∧
  (∀ c ∈ s.dr.toList, c < 2 ^ s.cfg.adcBits) ∧
  (∀ t ∈ s.pr.toList, t < 2 ^ s.cfg.tsBits) ∧
  s.corr.toNat < 360 ∧
  (∀ e ∈ s.out, e.legal = true) ∧
  s.cfg.legal = true

/-- The event is a WindReading. -/
def Event.isReading : Event → Bool
  | .reading _ _ => true
  | .tx _ => false
  | .corrVal _ => false
  | .wind _ _ _ => false
  | .cogsog _ _ _ _ => false
  | .depth _ _ _ => false
  | .reject _ => false
  | .refused _ => false

/-- The one event a line gives that is no rejection (43_parser_sentence.md R110). -/
def Event.isDispatch : Event → Bool
  | .wind _ _ _ => true
  | .cogsog _ _ _ _ => true
  | .depth _ _ _ => true
  | .reading _ _ => false
  | .tx _ => false
  | .corrVal _ => false
  | .reject _ => false
  | .refused _ => false

/-- `r` is the nearest integer to `x`; when `x` is half-way between two, it is the one ROUND_TIES names (40_sampler.md R75). -/
def IsNearest (ties : RoundTies) (x : Rat) (r : Nat) : Prop :=
  |(r : Rat) - x| ≤ 1 / 2 ∧
  (|(r : Rat) - x| = 1 / 2 →
    match ties with
    | .halfUp => x < (r : Rat)
    | .halfEven => r % 2 = 0)

/-- The direction mean as the rule writes it: `(DR[0] + ... + DR[N-1]) / (N * 2^ADC_BITS)` (R74). -/
def meanOfRing (s : State) : Rat := (∑ i : Fin Config.ringSize, (s.dr[i] : Rat)) / (10 * 2 ^ s.cfg.adcBits)

/-- The value of a string of decimal digits, the first one the most significant (30_encoding.md R62). -/
def decimalValue (ds : Str) : Nat := Nat.ofDigits 10 (ds.reverse.map fun d => d.toNat - 0x30)

/-- The field is a text of the grammar NUM with this sign, these digits before the point and these after it (R62):
`[ "-" ] ( DIGITS [ "." [ DIGITS ] ] | "." DIGITS )`. -/
def IsNumText (f : Str) (negative : Bool) (whole frac : Str) : Prop :=
  whole.all isDigit = true ∧ frac.all isDigit = true ∧
  ((whole ≠ [] ∧ frac = [] ∧ f = (if negative then [Chr.minus] else []) ++ whole) ∨
   (¬(whole = [] ∧ frac = []) ∧ f = (if negative then [Chr.minus] else []) ++ whole ++ Chr.dot :: frac))

/-- The checksum of a byte string, exclusive or from its end (30_encoding.md R56). -/
def xorAll (s : Str) : Byte := s.foldr (· ^^^ ·) 0

/-- The lower-case hex digits in order (R58). -/
def lowerHex : Str := ascii "0123456789abcdef"

/-- The three keys of REG (10_state.md R24). -/
def registryKeys : List Str := [ascii "MWV", ascii "VTG", ascii "DPT"]

/-- The next state after a rejection of a line or a sentence: one event more. -/
def rejected (code : RejectCode) (s : State) : Host.Outcome State Fault Refusal :=
  .next { s with out := s.out ++ [.reject code] }

end Machine
end Sys2Proof
end

