-- ==== Sys2Proof/Certificates/Slice0/Obligations.lean ====
section
/-! DEFINITION. The statements about the block, from the numbered rules of spec/. -/

open Sys2Proof Sys2Proof.Machine

/-! ### Reset, refusals, decoding, the step -/

/-- R129: RESET writes every part of S and nothing else; OUT stays. After it GET_CORR emits CORR_VAL(0). -/
def Obligations.ResetPutsTheBlockInItsInitialState : Prop :=
  ∀ s : State, ∃ t : State,
    exec .reset s = .next t ∧
    t.fb = [] ∧ (∀ j : Fin 10, t.dr[j] = 0) ∧ t.di.val = 0 ∧ (∀ j : Fin 10, t.pr[j] = 0) ∧ t.pi.val = 0 ∧ t.corr.toNat = 0 ∧
    { t with fb := s.fb, dr := s.dr, di := s.di, pr := s.pr, pi := s.pi, corr := s.corr } = s ∧
    exec .getCorr t = .next { t with out := s.out ++ [.corrVal 0] }

/-- R130: power-on is the state that RESET gives, with OUT empty. -/
def Obligations.PowerOnIsTheStateResetGives : Prop :=
  (∀ s t : State, exec .reset s = .next t → t.block = State.reset.block) ∧ State.reset.out = []

/-- R50: a reserved selector, with any operands, is recorded as REFUSED(op) and changes nothing. -/
def Obligations.ReservedSelectorChangesNothingAndEmitsRefused : Prop :=
  ∀ (s : State) (op : Byte) (operands : List Operand), 9 ≤ op.toNat →
    execTxn ⟨op, operands⟩ s = .next { s with out := s.out ++ [.refused op] }

/-- Words written out from the tables of R48 and R64 and from the spec's examples decode to their instructions. -/
def Obligations.WrittenOutWordsDecode : Prop :=
  decodeTableWord 8 0x00 = some .reset ∧
  decodeTableWord 8 0x05 = some .getCorr ∧
  decodeTableWord 8 0x09 = none ∧
  (∀ p : Params, decode p (.txn ⟨0x01, [.nat 0x2A]⟩) = .ok (.rxByte Chr.star)) ∧
  (∀ p : Params, decode p (.txn ⟨0x04, [.int (-10)]⟩) = .ok (.setCorr (-10))) ∧
  (∀ p : Params, decode p (.line (ascii "$IIDPT,12.5,0.0*76")) =
    .ok (.dpt ⟨0x49, 0x49⟩ [[], ascii "12.5", ascii "0.0"])) ∧
  (∀ p : Params, decode p (.line (ascii "$IIMWV,10.0,R,2.0,N,A*0E")) =
    .ok (.mwv ⟨0x49, 0x49⟩ [[], ascii "10.0", ascii "R", ascii "2.0", ascii "N", ascii "A"])) ∧
  (∀ p : Params, decode p (.line (ascii "$IIHDM,123.4,M*26")) = .ok (.hdm ⟨0x49, 0x49⟩ [[], ascii "123.4", ascii "M"])) ∧
  (∀ p : Params, decode p (.line (ascii "$IIVTG,1,T,2,M,3*40")) =
    .ok (.vtg ⟨0x49, 0x49⟩ [[], ascii "1", ascii "T", ascii "2", ascii "M", ascii "3"]))

/-- R48: the selector map, over every operand of the types of R49, and the reserved selectors. -/
def Obligations.SelectorMapDecodesEveryOperand : Prop :=
  ∀ p : Params,
    decode p (.txn ⟨0x00, []⟩) = .ok .reset ∧
    (∀ b : Byte, decode p (.txn ⟨0x01, [.nat b.toNat]⟩) = .ok (.rxByte b)) ∧
    (∀ ts : Nat, ts < 2 ^ p.tsBits → decode p (.txn ⟨0x02, [.nat ts]⟩) = .ok (.pulse ts)) ∧
    (∀ code : Nat, code < 2 ^ p.adcBits → decode p (.txn ⟨0x03, [.nat code]⟩) = .ok (.tick code)) ∧
    (∀ n : BitVec 16, decode p (.txn ⟨0x04, [.int n.toInt]⟩) = .ok (.setCorr n)) ∧
    decode p (.txn ⟨0x05, []⟩) = .ok .getCorr ∧
    (∀ (c1 c2 v1 v2 v3 : Byte) (fields : List Str),
      decode p (.txn ⟨0x06, [.str [c1, c2], .str [v1, v2, v3], .strs fields]⟩) = .ok (.encode ⟨c1, c2⟩ ⟨v1, v2, v3⟩ fields)) ∧
    (∀ (h : BitVec 16) (q : Rat), 0 ≤ q → decode p (.txn ⟨0x07, [.nat h.toNat, .rat q]⟩) = .ok (.emitMwv h q)) ∧
    (∀ h : BitVec 16, decode p (.txn ⟨0x08, [.nat h.toNat]⟩) = .ok (.emitHdm h)) ∧
    (∀ (op : Byte) (operands : List Operand), 9 ≤ op.toNat → decode p (.txn ⟨op, operands⟩) = .error (.txn (.reserved op)))

/-- Decoding undoes encoding, for every well-formed instruction of both encodings and every operand. -/
def Obligations.DecodeOfEncodeIsTheInstruction : Prop :=
  ∀ (p : Params) (i : Instr), i.wellFormed p = true → decode p (encode i) = .ok i

/-- A transaction record that decodes is well formed and is the one its instruction encodes to: each record has one
meaning, and no operand is dropped. -/
def Obligations.EncodeOfDecodedTransactionIsTheRecord : Prop :=
  ∀ (p : Params) (t : Txn) (i : Instr), decode p (.txn t) = .ok i → i.wellFormed p = true ∧ encode i = .txn t

/-- A line without LF, of at most FRAME_CAP bytes, that decodes gives a well-formed sentence: its talker is L[1..2], and its
fields joined with commas are the body L[6..n-4]. -/
def Obligations.DecodedLineIsAWellFormedSentence : Prop :=
  ∀ (p : Params) (L : Str) (i : Instr), lacks Chr.lf L = true → L.length ≤ Config.frameCap → decode p (.line L) = .ok i →
    i.wellFormed p = true ∧
    ∃ talker fields,
      (i = .mwv talker fields ∨ i = .vtg talker fields ∨ i = .dpt talker fields ∨ i = .hdm talker fields) ∧
      talker.bytes = (L.drop 1).take 2 ∧ join fields = (L.drop 6).take (L.length - 9)

/-- A step takes the oldest transaction of the source whose turn it is, and runs the instruction it decodes to. -/
def Obligations.StepRunsTheDecodedTransaction : Prop :=
  ∀ (s : State) (src : Source) (turns : List Source) (x : Txn) (rest : List Txn) (i : Instr),
    s.schedule = src :: turns → pending src s = x :: rest → decode s.cfg (.txn x) = .ok i →
      step s = exec i (setSchedule turns (setPending src rest s))

/-- The LF that completes a line runs the sentence the line decodes to, with FB already empty (R95, R106). -/
def Obligations.CompletedLineRunsItsSentence : Prop :=
  ∀ (s : State) (i : Instr), decode s.cfg (.line (completedLine s.fb)) = .ok i →
    exec (.rxByte Chr.lf) s = exec i { s with fb := [] }

/-- R128: with no transaction to take, a step keeps the state. -/
def Obligations.IdleStepKeepsTheState : Prop :=
  ∀ s : State, s.schedule = [] → step s = .next s

/-- A step takes one turn: it removes at most the oldest transaction of the source whose turn it is, leaves what the other
sources have issued, and changes no configuration (R39, R25). The form of the queues is the model's (log entry 2). -/
def Obligations.StepTakesOneTurnInIssueOrder : Prop :=
  ∀ (s t : State) (src : Source) (turns : List Source), s.schedule = src :: turns → step s = .next t →
    t.schedule = turns ∧ pending src t = (pending src s).tail ∧
    (∀ other, other ≠ src → pending other t = pending other s) ∧ t.cfg = s.cfg

/-- Every interleaving of the sources is one schedule: however transactions are issued, each source's queue holds its own in
issue order, and as many steps as there are transactions run them one after another in the total order (R39, R40). -/
def Obligations.StepsRunAnyInterleavingInOneTotalOrder : Prop :=
  ∀ (s : State) (l : List (Source × Txn)), s.schedule = [] → (∀ src, pending src s = []) →
    (issueAll l s).schedule = l.map Prod.fst ∧
    (∀ src, pending src (issueAll l s) = (l.filter fun x => x.1 = src).map Prod.snd) ∧
    Host.Core.run Sys2Proof.core l.length (issueAll l s) = runTxns (l.map Prod.snd) s

/-- Every instruction of the table completes, from every state and with every operand: no fault, no refusal. -/
def Obligations.EveryInstructionAnswersANextState : Prop :=
  ∀ (i : Instr) (s : State), ∃ t, exec i s = .next t

/-- R120, R123: when it is a source's turn, its oldest transaction, if it can be written down at all, is taken: the step
answers what executing it answers, with that transaction and that turn gone, whichever source issued it. And no step stops
while everything pending can be written down. The queues and the schedule are the model's (log entry 2), and so is the reading
of what can be written down (log entry 6). -/
def Obligations.EveryIssuedTransactionIsTaken : Prop :=
  (∀ (s : State) (src : Source) (turns : List Source) (x : Txn) (rest : List Txn),
    s.schedule = src :: turns → pending src s = x :: rest → x.legal s.cfg = true → ∃ t,
      step s = .next t ∧ execTxn x (setSchedule turns (setPending src rest s)) = .next t ∧
      pending src t = rest ∧ t.schedule = turns) ∧
  (∀ s : State, (∀ src, ∀ x ∈ pending src s, x.legal s.cfg = true) → ∃ t, step s = .next t)

/-! ### SAMPLER -/

/-- R71: PULSE writes the slot PI names and advances PI modulo P; nothing else changes and nothing is emitted. -/
def Obligations.PulseOverwritesTheOldestTimestamp : Prop :=
  ∀ (s : State) (ts : Nat), ∃ t,
    exec (.pulse ts) s = .next t ∧
    t.pr[s.pi] = ts ∧ (∀ j : Fin 10, j ≠ s.pi → t.pr[j] = s.pr[j]) ∧ t.pi.val = (s.pi.val + 1) % 10 ∧
    { t with pr := s.pr, pi := s.pi } = s

/-- R72, R79: TICK writes the slot DI names and advances DI modulo N. On the wrap to 0 the report emits READING and then,
with AUTO_EMIT_MWV, the MWV sentence, both from the ring as just written; otherwise nothing is emitted. -/
def Obligations.TickStoresTheSampleAndReportsOnTheWrap : Prop :=
  ∀ (s : State) (code : Nat), ∃ t,
    exec (.tick code) s = .next t ∧
    t.dr[s.di] = code ∧ (∀ j : Fin 10, j ≠ s.di → t.dr[j] = s.dr[j]) ∧ t.di.val = (s.di.val + 1) % 10 ∧
    { t with dr := s.dr, di := s.di, out := s.out } = s ∧
    (t.di.val ≠ 0 → t.out = s.out) ∧
    (t.di.val = 0 → t.out = s.out ++ .reading (reportHeading t) (reportSpeed t) ::
      (if s.cfg.autoEmitMwv then [.tx (mwvSentence s.cfg.roundTies (reportHeading t) (reportSpeed t))] else []))

/-- R74 to R76: the heading of a report is the nearest integer to the mean times 3600, reduced, corrected and reduced again;
with codes of their width the mean is in [0, 1). -/
def Obligations.ReportHeadingIsTheCorrectedRoundedMean : Prop :=
  ∀ s : State,
    (∃ r : Nat, IsNearest s.cfg.roundTies (meanOfRing s * 3600) r ∧
      reportHeading s = (r % 3600 + s.corr.toNat * 10) % 3600) ∧
    reportHeading s < 3600 ∧
    0 ≤ meanOfRing s ∧ ((∀ j : Fin 10, s.dr[j] < 2 ^ s.cfg.adcBits) → meanOfRing s < 1)

/-- R77, R78: the speed of a report, from the oldest and the newest timestamp. -/
def Obligations.ReportSpeedIsNineIntervalsOverTheSpan : Prop :=
  ∀ (s : State) (oldest newest delta : Nat),
    oldest = s.pr.toList.getD s.pi.val 0 → newest = s.pr.toList.getD ((s.pi.val + 9) % 10) 0 →
    (delta : Int) = ((newest : Int) - (oldest : Int)) % (2 ^ s.cfg.tsBits) →
      (oldest = 0 → reportSpeed s = 0) ∧
      (delta = 0 → reportSpeed s = 0) ∧
      (oldest ≠ 0 → delta ≠ 0 →
        reportSpeed s * delta = 9 * (s.cfg.ticksPerSecond : Rat) * ((225 / 100) * (868976 / 1000000))) ∧
      0 ≤ reportSpeed s

/-- R73: a report runs exactly when a TICK advances DI from 9 to 0. Over any transactions without a RESET, the READINGs
emitted are one for each full ten TICKs, counted from where DI stood. -/
def Obligations.ReportsComeOnEveryTenthTick : Prop :=
  (∀ (i : Instr) (s t : State), exec i s = .next t →
    (t.out.countP Event.isReading = s.out.countP Event.isReading + 1 ↔ (∃ code, i = .tick code) ∧ s.di.val = 9) ∧
    (t.out.countP Event.isReading ≤ s.out.countP Event.isReading + 1)) ∧
  ∀ (l : List Txn) (s t : State), (∀ x ∈ l, x.op ≠ 0x00) → runTxns l s = .next t →
    t.out.countP Event.isReading =
        s.out.countP Event.isReading + (s.di.val + (l.filterMap Txn.tickCode).length) / 10 ∧
      t.di.val = (s.di.val + (l.filterMap Txn.tickCode).length) % 10

/-- The ring that the first report after reset averages holds the ten samples since reset, in order, whatever other
transactions came between them (R133). -/
def Obligations.RingHoldsTheTenSamplesSinceTheWrap : Prop :=
  ∀ (l : List Txn) (s t : State), s.di.val = 0 → (∀ x ∈ l, x.op ≠ 0x00) → (l.filterMap Txn.tickCode).length = 10 →
    runTxns l s = .next t → t.dr.toList = l.filterMap Txn.tickCode

/-- R82 and R71 (a): after ten or more PULSEs and no RESET the report reads the last ten timestamps, however long ago they
were taken; transactions without PULSE and RESET leave the speed as it was. -/
def Obligations.SpeedComesFromTheLastTenPulses : Prop :=
  ∀ (l : List Txn) (s t : State), (∀ x ∈ l, x.op ≠ 0x00) → runTxns l s = .next t →
    (10 ≤ (l.filterMap Txn.pulseStamp).length →
      oldestPulse t = (l.filterMap Txn.pulseStamp).getD ((l.filterMap Txn.pulseStamp).length - 10) 0 ∧
      newestPulse t = (l.filterMap Txn.pulseStamp).getD ((l.filterMap Txn.pulseStamp).length - 1) 0) ∧
    (l.filterMap Txn.pulseStamp = [] → reportSpeed t = reportSpeed s)

/-- From the reset state of S, fewer than ten PULSEs and no RESET: every READING has speed 0 (R133, R78). -/
def Obligations.SpeedIsZeroUntilTenPulsesSinceReset : Prop :=
  ∀ (l : List Txn) (s t : State), s.block = State.reset.block → (∀ x ∈ l, x.op ≠ 0x00) →
    (l.filterMap Txn.pulseStamp).length < 10 → runTxns l s = .next t →
      reportSpeed t = 0 ∧ ∃ evs, t.out = s.out ++ evs ∧ ∀ (h : Nat) (v : Rat), Event.reading h v ∈ evs → v = 0

/-- R80: SET_CORR stores its operand reduced modulo 360, 360 - |n| for a negative n down to -359. -/
def Obligations.SetCorrStoresTheOperandModulo360 : Prop :=
  ∀ (s : State) (n : BitVec 16), ∃ t,
    exec (.setCorr n) s = .next t ∧
    (t.corr.toNat : Int) = n.toInt % 360 ∧ t.corr.toNat < 360 ∧
    (-359 ≤ n.toInt → n.toInt < 0 → t.corr.toNat = 360 - n.toInt.natAbs) ∧
    { t with corr := s.corr } = s

/-- R81: GET_CORR emits CORR and writes nothing. -/
def Obligations.GetCorrEmitsTheCorrection : Prop :=
  ∀ s : State, exec .getCorr s = .next { s with out := s.out ++ [.corrVal s.corr.toNat] }

/-- A SET_CORR applies to the report of a TICK after it (R134, R80, R76). -/
def Obligations.CorrectionReachesTheNextReport : Prop :=
  ∀ (s : State) (n : BitVec 16) (code : Nat), s.di.val = 9 → ∃ (t u : State) (h : Nat) (v : Rat) (rest : List Event),
    exec (.setCorr n) s = .next t ∧ exec (.tick code) t = .next u ∧
    u.out = s.out ++ .reading h v :: rest ∧
    (h : Int) = ((rawHeading u : Int) + (n.toInt % 360) * 10) % 3600

/-! ### ASSEMBLER -/

/-- R84, R85, R58: the one TX event of ENCODE, byte for byte; no state is written. -/
def Obligations.EncodeEmitsTheAssembledSentence : Prop :=
  ∀ (s : State) (talker : Talker) (verb : VerbBytes) (fields : List Str) (content : Str),
    content = [talker.c1, talker.c2, verb.v1, verb.v2, verb.v3, Chr.comma] ++ List.intercalate [Chr.comma] fields →
    exec (.encode talker verb fields) s = .next { s with out := s.out ++ [.tx
      ([Chr.dollar] ++ content ++ [Chr.star] ++
        [lowerHex.getD ((xorAll content).toNat / 16) 0, lowerHex.getD ((xorAll content).toNat % 16) 0] ++
        [Chr.cr, Chr.lf])] }

/-- R86: one decimal, rounded to nearest with ROUND_TIES, decimal digits without leading zeros. -/
def Obligations.FormattedNumberIsTheNearestTenth : Prop :=
  ∀ (ties : RoundTies) (q : Rat), 0 ≤ q → ∃ r : Nat,
    IsNearest ties (q * 10) r ∧
    fmt1 ties q = (Nat.toDigits 10 (r / 10)).map (fun c => BitVec.ofNat 8 c.toNat) ++ [Chr.dot, BitVec.ofNat 8 (0x30 + r % 10)]

/-- R87: a heading in tenths prints as its exact value, under either tie rule. -/
def Obligations.TenthsFormatIsExact : Prop :=
  (∀ t : Nat, fmtTenths t =
    (Nat.toDigits 10 (t / 10)).map (fun c => BitVec.ofNat 8 c.toNat) ++ [Chr.dot, BitVec.ofNat 8 (0x30 + t % 10)]) ∧
  (∀ (ties : RoundTies) (t : Nat), fmtTenths t = fmt1 ties ((t : Rat) / 10)) ∧
  fmtTenths 0 = ascii "0.0" ∧ fmtTenths 100 = ascii "10.0" ∧ fmtTenths 3599 = ascii "359.9"

/-- Every number the ASSEMBLER writes matches NUM and reads back as the rounded value (R62, R86). -/
def Obligations.WrittenNumberReadsBack : Prop :=
  ∀ t : Nat, ∃ n, parseNum (fmtTenths t) = some n ∧ n.value = (t : Rat) / 10 ∧ n.trunc = ((t / 10 : Nat) : Int)

/-- R88: EMIT_MWV emits the sentence that ENCODE gives for "II", "MWV" and the five fields, and it is the sentence of the
report (`mwvSentence`, which the statement about TICK names). -/
def Obligations.EmitMwvEmitsTheWindSentence : Prop :=
  ∀ (s : State) (h : BitVec 16) (q : Rat),
    exec (.emitMwv h q) s = exec (.encode ⟨0x49, 0x49⟩ ⟨0x4D, 0x57, 0x56⟩
      [fmtTenths h.toNat, [0x52], fmt1 s.cfg.roundTies q, [0x4E], [0x41]]) s ∧
    exec (.emitMwv h q) s = .next { s with out := s.out ++ [.tx (mwvSentence s.cfg.roundTies h.toNat q)] }

/-- R89: EMIT_HDM emits the sentence that ENCODE gives for "II", "HDM" and the two fields. -/
def Obligations.EmitHdmEmitsTheHeadingSentence : Prop :=
  ∀ (s : State) (h : BitVec 16),
    exec (.emitHdm h) s = exec (.encode ⟨0x49, 0x49⟩ ⟨0x48, 0x44, 0x4D⟩ [fmtTenths h.toNat, [0x4D]]) s ∧
    exec (.emitHdm h) s = .next { s with out := s.out ++ [.tx (hdmSentence h.toNat)] }

/-! ### PARSER: framing -/

/-- R93: bytes other than LF are appended; FB holds the most recent FRAME_CAP of them since the last LF, and one
FRAMING_OVERFLOW is emitted for each byte discarded. -/
def Obligations.FrameHoldsTheLatestBytesSinceTheLastLf : Prop :=
  ∀ (s : State) (chunk : Str), lacks Chr.lf chunk = true → s.fb.length ≤ 1024 →
    runTxns (rxChunk chunk) s = .next { s with
      fb := (s.fb ++ chunk).drop ((s.fb ++ chunk).length - 1024)
      out := s.out ++ List.replicate ((s.fb ++ chunk).length - 1024) (.reject .framingOverflow) }

/-- R92, R93: one byte other than LF, from any state. -/
def Obligations.ByteIsAppendedAndTheOldestDiscardedWhenFull : Prop :=
  ∀ (s : State) (b : Byte), b ≠ Chr.lf →
    (s.fb.length = 1024 → exec (.rxByte b) s = .next { s with
      fb := s.fb.drop 1 ++ [b], out := s.out ++ [.reject .framingOverflow] }) ∧
    (s.fb.length ≠ 1024 → exec (.rxByte b) s = .next { s with fb := s.fb ++ [b] })

/-- R94: an LF hands FB, less one trailing CR, to PROCESS_LINE and empties FB; the empty line is rejected for its length. -/
def Obligations.LineFeedEndsTheLine : Prop :=
  (∀ (s : State) (L : Str), s.fb = L ++ [Chr.cr] → exec (.rxByte Chr.lf) s = processLine L { s with fb := [] }) ∧
  (∀ s : State, s.fb.getLast? ≠ some Chr.cr → exec (.rxByte Chr.lf) s = processLine s.fb { s with fb := [] }) ∧
  (∀ s : State, s.fb = [] ∨ s.fb = [Chr.cr] →
    exec (.rxByte Chr.lf) s = .next { s with fb := [], out := s.out ++ [.reject .badLength] })

/-- R113, R118: whatever the line, accepted or rejected, the state after its LF is the state before with FB empty and one
event more. -/
def Obligations.StateAfterALineIsTheStateWithFrameEmpty : Prop :=
  ∀ s : State, ∃ ev, exec (.rxByte Chr.lf) s = .next { s with fb := [], out := s.out ++ [ev] }

/-- R116: one received byte emits at most one event, so never an overflow and a line's rejection together. -/
def Obligations.OneByteEmitsAtMostOneEvent : Prop :=
  ∀ (s : State) (b : Byte), ∃ t evs, exec (.rxByte b) s = .next t ∧ t.out = s.out ++ evs ∧ evs.length ≤ 1 ∧
    (Event.reject .framingOverflow ∈ evs ↔ b ≠ Chr.lf ∧ s.fb.length = 1024)

/-- R97: the events do not depend on how bytes are cut into chunks; K lines sent with CR LF give exactly K events, one for
each line, in their order. -/
def Obligations.BatchOfLinesGivesOneEventEachInOrder : Prop :=
  (∀ (s : State) (chunks : List Str), runTxns (chunks.flatMap rxChunk) s = runTxns (rxChunk chunks.flatten) s) ∧
  ∃ eventOf : Str → Event,
    (∀ (L : Str) (s : State), processLine L s = .next { s with out := s.out ++ [eventOf L] }) ∧
    ∀ (s : State) (lines : List Str), s.fb = [] → (∀ L ∈ lines, lacks Chr.lf L = true ∧ L.length + 1 ≤ 1024) →
      runTxns (rxChunk (lines.flatMap fun L => L ++ [Chr.cr, Chr.lf])) s =
        .next { s with out := s.out ++ lines.map eventOf }

/-- R98: with CR LF a line of n bytes is delivered whole when n + 1 <= FRAME_CAP, with a bare LF when n <= FRAME_CAP; a longer
one loses its first bytes, one FRAMING_OVERFLOW each, and its tail is BAD_PREFIX unless it happens to begin with `$`, with
either terminator. -/
def Obligations.LongestLineDeliveredWhole : Prop :=
  ∀ (s : State) (L : Str), s.fb = [] → lacks Chr.lf L = true →
    runTxns (rxSentence L) s =
      processLine (L.drop (L.length + 1 - 1024))
        { s with out := s.out ++ List.replicate (L.length + 1 - 1024) (.reject .framingOverflow) } ∧
    (L.getLast? ≠ some Chr.cr → runTxns (rxChunk (L ++ [Chr.lf])) s =
      processLine (L.drop (L.length - 1024))
        { s with out := s.out ++ List.replicate (L.length - 1024) (.reject .framingOverflow) }) ∧
    (1024 ≤ L.length → (L.drop (L.length + 1 - 1024)).head? ≠ some Chr.dollar →
      ∀ u : State, processLine (L.drop (L.length + 1 - 1024)) u = rejected .badPrefix u) ∧
    (1025 ≤ L.length → (L.drop (L.length - 1024)).head? ≠ some Chr.dollar →
      ∀ u : State, processLine (L.drop (L.length - 1024)) u = rejected .badPrefix u)

/-- R46: with FB empty, a byte sequence that ends with LF, fed twice, gives the same events twice and leaves FB empty. -/
def Obligations.SameBytesTwiceGiveTheSameEventsTwice : Prop :=
  ∀ (s : State) (bytes : Str), s.fb = [] → bytes.getLast? = some Chr.lf → ∃ evs,
    runTxns (rxChunk bytes) s = .next { s with out := s.out ++ evs } ∧
    runTxns (rxChunk (bytes ++ bytes)) s = .next { s with out := s.out ++ evs ++ evs }

/-! ### PARSER: sentences -/

/-- R99 to R106: the checks of PROCESS_LINE in their order, then the verb's parser on the body's fields. -/
def Obligations.LineIsCheckedInOrderAndDispatched : Prop :=
  ∀ (s : State) (L : Str) (n : Nat), n = L.length →
    (n < 10 → processLine L s = rejected .badLength s) ∧
    (10 ≤ n → L.head? ≠ some Chr.dollar → processLine L s = rejected .badPrefix s) ∧
    (10 ≤ n → L.head? = some Chr.dollar →
      (L[n - 3]? ≠ some Chr.star ∨ (L[n - 2]?).bind hexval = none ∨ (L[n - 1]?).bind hexval = none) →
        processLine L s = rejected .badSuffix s) ∧
    (∀ hi lo : Nat, 10 ≤ n → L.head? = some Chr.dollar → L[n - 3]? = some Chr.star →
      (L[n - 2]?).bind hexval = some hi → (L[n - 1]?).bind hexval = some lo →
        ((xorAll ((L.drop 1).take (n - 4))).toNat ≠ hi * 16 + lo → processLine L s = rejected .checksumMismatch s) ∧
        ((xorAll ((L.drop 1).take (n - 4))).toNat = hi * 16 + lo →
          ((L.drop 3).take 3 ∉ registryKeys → processLine L s = rejected .unknownVerb s) ∧
          (∀ talker : Talker, talker.bytes = (L.drop 1).take 2 →
            ((L.drop 3).take 3 = ascii "MWV" →
              processLine L s = exec (.mwv talker (split ((L.drop 6).take (n - 9)))) s) ∧
            ((L.drop 3).take 3 = ascii "VTG" →
              processLine L s = exec (.vtg talker (split ((L.drop 6).take (n - 9)))) s) ∧
            ((L.drop 3).take 3 = ascii "DPT" →
              processLine L s = exec (.dpt talker (split ((L.drop 6).take (n - 9)))) s))))

/-- R110: PROCESS_LINE writes no state and emits exactly one event, which depends on the line alone. -/
def Obligations.ProcessLineEmitsExactlyOneEvent : Prop :=
  ∀ L : Str, ∃ ev : Event, (ev.isDispatch = true ∨ ∃ code, ev = .reject code) ∧
    ∀ s : State, processLine L s = .next { s with out := s.out ++ [ev] }

/-- R60: the tokenizer cuts at every comma and nowhere else, and loses nothing; a body that begins with a comma has an empty
first field. -/
def Obligations.TokenizerCutsAtEveryComma : Prop :=
  ∀ body : Str,
    List.intercalate [Chr.comma] (split body) = body ∧
    (split body).length = body.count Chr.comma + 1 ∧
    (∀ f ∈ split body, Chr.comma ∉ f) ∧
    (body.head? = some Chr.comma → (split body).head? = some [])

/-- R62: a field reads as a number exactly when it is a text of NUM, and its value is sign * (I + F / 10^|F|). -/
def Obligations.NumberGrammarAndValue : Prop :=
  (∀ (f : Str) (n : NumText), parseNum f = some n → ∃ negative whole frac, IsNumText f negative whole frac) ∧
  (∀ (f : Str) (negative : Bool) (whole frac : Str), IsNumText f negative whole frac → ∃ n,
    parseNum f = some n ∧
    n.value = (if negative then -1 else 1) * ((decimalValue whole : Rat) + (decimalValue frac : Rat) / 10 ^ frac.length))

/-- R63: the truncation of a numeric field is sign * I, its value truncated toward zero. -/
def Obligations.TruncationIsTowardZero : Prop :=
  (∀ (f : Str) (n : NumText), parseNum f = some n → n.trunc = if 0 ≤ n.value then ⌊n.value⌋ else ⌈n.value⌉) ∧
  (∀ (f : Str) (negative : Bool) (whole frac : Str) (n : NumText), IsNumText f negative whole frac → parseNum f = some n →
    n.trunc = (if negative then -1 else 1) * (decimalValue whole : Int))

/-- R107: PARSE_MWV with its rejections in their order of precedence. -/
def Obligations.MwvSentenceIsParsed : Prop :=
  ∀ (s : State) (talker : Talker) (fields : List Str),
    (fields.length ≠ 6 → exec (.mwv talker fields) s = rejected .fieldCount s) ∧
    ∀ f0 f1 f2 f3 f4 f5, fields = [f0, f1, f2, f3, f4, f5] →
      (parseNum f1 = none → exec (.mwv talker fields) s = rejected .malformedNumeric s) ∧
      (parseNum f1 ≠ none → parseNum f3 = none → exec (.mwv talker fields) s = rejected .malformedNumeric s) ∧
      (parseNum f1 ≠ none → parseNum f3 ≠ none → f4 ≠ ascii "M" → f4 ≠ ascii "K" → f4 ≠ ascii "N" →
        exec (.mwv talker fields) s = rejected .badUnit s) ∧
      (∀ a v : NumText, parseNum f1 = some a → parseNum f3 = some v → ∀ k : Rat,
        (f4 = ascii "M" ∧ k = 868976242 / 1000000000) ∨ (f4 = ascii "K" ∧ k = 539956803 / 1000000000) ∨
          (f4 = ascii "N" ∧ k = 1) →
        exec (.mwv talker fields) s = .next { s with out := s.out ++ [.wind talker a.trunc (v.value * k)] })

/-- R108: PARSE_VTG, its fields checked left to right; a course of exactly 360 is accepted (C2). -/
def Obligations.VtgSentenceIsParsed : Prop :=
  ∀ (s : State) (talker : Talker) (fields : List Str),
    (fields.length < 6 → exec (.vtg talker fields) s = rejected .fieldCount s) ∧
    ∀ f0 f1 f2 f3 f4 f5 more, fields = f0 :: f1 :: f2 :: f3 :: f4 :: f5 :: more →
      (parseNum f1 = none → exec (.vtg talker fields) s = rejected .malformedNumeric s) ∧
      ∀ tc : NumText, parseNum f1 = some tc →
        (¬(0 ≤ tc.value ∧ tc.value ≤ 360) → exec (.vtg talker fields) s = rejected .outOfRange s) ∧
        (0 ≤ tc.value → tc.value ≤ 360 →
          (parseNum f3 = none → exec (.vtg talker fields) s = rejected .malformedNumeric s) ∧
          ∀ mc : NumText, parseNum f3 = some mc →
            (¬(0 ≤ mc.value ∧ mc.value ≤ 360) → exec (.vtg talker fields) s = rejected .outOfRange s) ∧
            (0 ≤ mc.value → mc.value ≤ 360 →
              (parseNum f5 = none → exec (.vtg talker fields) s = rejected .malformedNumeric s) ∧
              ∀ sog : NumText, parseNum f5 = some sog →
                exec (.vtg talker fields) s =
                  .next { s with out := s.out ++ [.cogsog talker tc.value mc.value sog.value] }))

/-- R109: PARSE_DPT; the offset is 0 whatever the fields after the depth hold. -/
def Obligations.DptSentenceIsParsed : Prop :=
  ∀ (s : State) (talker : Talker) (fields : List Str),
    (fields.length < 2 → exec (.dpt talker fields) s = rejected .fieldCount s) ∧
    ∀ f0 f1 more, fields = f0 :: f1 :: more →
      (parseNum f1 = none → exec (.dpt talker fields) s = rejected .malformedNumeric s) ∧
      (∀ d : NumText, parseNum f1 = some d →
        exec (.dpt talker fields) s = .next { s with out := s.out ++ [.depth talker d.value 0] })

/-- R65: HDM is no key of the registry: a received HDM sentence is dropped with UNKNOWN_VERB, whatever its fields. -/
def Obligations.HdmSentenceIsDropped : Prop :=
  ∀ (s : State) (talker : Talker) (fields : List Str), exec (.hdm talker fields) s = rejected .unknownVerb s

/-- R111 (a): one flipped bit between `$` and `*`, other than one that makes an LF, in a line that passes the checks, is
rejected as a checksum mismatch. -/
def Obligations.SingleBitFlipIsAChecksumMismatch : Prop :=
  ∀ (s : State) (L : Str) (t : Sentence) (k : Nat) (old new : Byte) (bit : Fin 8),
    s.fb = [] → lacks Chr.lf L = true → L.length + 1 ≤ 1024 → decodeSentence L = .ok t →
    1 ≤ k → k ≤ L.length - 4 → L[k]? = some old → new = old ^^^ BitVec.twoPow 8 bit.val → new ≠ Chr.lf →
      runTxns (rxSentence (L.set k new)) s = rejected .checksumMismatch s

/-- R111 (b): a flip that makes an LF cuts the line in two; with no `$` and no `*` in the checksum region neither part is
dispatched. -/
def Obligations.BitFlipToLineFeedDispatchesNothing : Prop :=
  ∀ (s : State) (L : Str) (t : Sentence) (k : Nat),
    s.fb = [] → lacks Chr.lf L = true → L.length + 1 ≤ 1024 → decodeSentence L = .ok t →
    lacks Chr.dollar ((L.drop 1).take (L.length - 4)) = true → lacks Chr.star ((L.drop 1).take (L.length - 4)) = true →
    1 ≤ k → k ≤ L.length - 4 →
      ∃ c1 c2 : RejectCode, (c1 = .badLength ∨ c1 = .badSuffix) ∧ (c2 = .badLength ∨ c2 = .badPrefix) ∧
        runTxns (rxSentence (L.set k Chr.lf)) s = .next { s with out := s.out ++ [.reject c1, .reject c2] }

/-! ### The whole block -/

/-- What ENCODE writes, received again, is the sentence with the talker and the fields that went in, under R90's conditions.
Two conditions more than R90's words: at least one field (an empty list is read back as two empty fields, R60), and no LF
in the talker (log entry 13). -/
def Obligations.EncodedSentenceIsReadBack : Prop :=
  ∀ (s : State) (v : SentenceVerb) (talker : Talker) (fields : List Str),
    s.fb = [] → fields ≠ [] → fields.all (lacks Chr.comma) = true → fields.all (lacks Chr.lf) = true →
    lacks Chr.lf talker.bytes = true →
    (encodeOut talker (verbBytesOfKey v.key) fields).length ≤ 1024 + 1 →
      runTxns (rxChunk (encodeOut talker (verbBytesOfKey v.key) fields)) s =
        exec (Sentence.toInstr ⟨v, talker, [] :: fields⟩) s

/-- The wind loopback: what EMIT_MWV sends, received again, is a WIND event with the heading truncated to degrees and the
speed rounded to tenths (R88, R90, R107). -/
def Obligations.EmittedWindSentenceIsReadBack : Prop :=
  ∀ (s : State) (h : BitVec 16) (q : Rat) (bytes : Str), s.fb = [] → 0 ≤ q → bytes.length ≤ 1024 + 1 →
    exec (.emitMwv h q) s = .next { s with out := s.out ++ [.tx bytes] } →
      ∃ r : Nat, IsNearest s.cfg.roundTies (q * 10) r ∧
        runTxns (rxChunk bytes) s =
          .next { s with out := s.out ++ [.wind ⟨0x49, 0x49⟩ ((h.toNat / 10 : Nat) : Int) ((r : Rat) / 10)] }

/-- R26: every instruction, and every transaction the block takes, only appends to OUT, and none reads it. -/
def Obligations.OutputIsAppendedToAndNeverRead : Prop :=
  (∀ (i : Instr) (s : State), ∃ (t : State) (evs : List Event),
    t.out = s.out ++ evs ∧ exec i s = .next t ∧
    ∀ history : List Event, exec i { s with out := history } = .next { t with out := history ++ evs }) ∧
  (∀ (x : Txn) (s t : State), execTxn x s = .next t → ∃ evs : List Event,
    t.out = s.out ++ evs ∧
    ∀ history : List Event, execTxn x { s with out := history } = .next { t with out := history ++ evs })

/-- The writes of R28: which instruction may change which part of S, and that none changes the configuration or what the
sources have issued. -/
def Obligations.InstructionsWriteOnlyTheirOwnState : Prop :=
  ∀ (i : Instr) (s t : State), exec i s = .next t →
    ((t.fb ≠ s.fb) → i = .reset ∨ ∃ b, i = .rxByte b) ∧
    ((t.dr ≠ s.dr ∨ t.di ≠ s.di) → i = .reset ∨ ∃ code, i = .tick code) ∧
    ((t.pr ≠ s.pr ∨ t.pi ≠ s.pi) → i = .reset ∨ ∃ ts, i = .pulse ts) ∧
    ((t.corr ≠ s.corr) → i = .reset ∨ ∃ n, i = .setCorr n) ∧
    { t with fb := s.fb, dr := s.dr, di := s.di, pr := s.pr, pi := s.pi, corr := s.corr, out := s.out } = s

/-- The reads of R28: RX_BYTE sees FB alone; every instruction but RX_BYTE and RESET carries FB along unread, every one but
TICK and RESET the direction ring, every one but TICK, PULSE and RESET the pulse ring, and every one but TICK, SET_CORR,
GET_CORR and RESET the correction. -/
def Obligations.InstructionsReadOnlyTheirOwnState : Prop :=
  (∀ (b : Byte) (fb : Str), ∃ (fb' : Str) (evs : List Event), ∀ s : State, s.fb = fb →
    exec (.rxByte b) s = .next { s with fb := fb', out := s.out ++ evs }) ∧
  (∀ (i : Instr) (s t : State) (fb : Str), (∀ b, i ≠ .rxByte b) → i ≠ .reset → exec i s = .next t →
    exec i { s with fb := fb } = .next { t with fb := fb }) ∧
  (∀ (i : Instr) (s t : State) (dr : Vector Nat 10) (di : Fin 10), (∀ code, i ≠ .tick code) → i ≠ .reset →
    exec i s = .next t → exec i { s with dr := dr, di := di } = .next { t with dr := dr, di := di }) ∧
  (∀ (i : Instr) (s t : State) (pr : Vector Nat 10) (pi : Fin 10), (∀ code, i ≠ .tick code) → (∀ ts, i ≠ .pulse ts) →
    i ≠ .reset → exec i s = .next t → exec i { s with pr := pr, pi := pi } = .next { t with pr := pr, pi := pi }) ∧
  (∀ (i : Instr) (s t : State) (corr : BitVec 9), (∀ code, i ≠ .tick code) → (∀ n, i ≠ .setCorr n) → i ≠ .getCorr →
    i ≠ .reset → exec i s = .next t → exec i { s with corr := corr } = .next { t with corr := corr })

/-- The invariant of S holds at power-on (R18, R19, R21, R23, R27). -/
def Obligations.InvariantHoldsAtReset : Prop := State.reset.Inv

/-- Every step keeps the invariant: FB without LF and within FRAME_CAP, ring entries within their widths, CORR legal, every
event in its ranges (R18, R19, R21, R23, R27). -/
def Obligations.StepKeepsTheInvariant : Prop :=
  ∀ s t : State, s.Inv → step s = .next t → t.Inv

/-! ### Digits and numbers of codes -/

/-- R57: which bytes are hex digits and their values; the checksum field is the two digits at the line's end; and how a line
spells its two digits makes no difference to it. -/
def Obligations.HexDigitsAreReadInEitherCase : Prop :=
  (∀ c : Byte,
    (0x30 ≤ c.toNat → c.toNat ≤ 0x39 → hexval c = some (c.toNat - 0x30)) ∧
    (0x41 ≤ c.toNat → c.toNat ≤ 0x46 → hexval c = some (c.toNat - 0x41 + 10)) ∧
    (0x61 ≤ c.toNat → c.toNat ≤ 0x66 → hexval c = some (c.toNat - 0x61 + 10)) ∧
    (¬(0x30 ≤ c.toNat ∧ c.toNat ≤ 0x39) → ¬(0x41 ≤ c.toNat ∧ c.toNat ≤ 0x46) → ¬(0x61 ≤ c.toNat ∧ c.toNat ≤ 0x66) →
      hexval c = none)) ∧
  (∀ (L : Str) (hi lo : Nat), 10 ≤ L.length → L[L.length - 3]? = some Chr.star →
    (L[L.length - 2]?).bind hexval = some hi → (L[L.length - 1]?).bind hexval = some lo →
      ∃ h : Byte, checksumField L = some h ∧ h.toNat = hi * 16 + lo) ∧
  (∀ (L : Str) (a b a' b' : Byte), hexval a = hexval a' → hexval b = hexval b' →
    ∀ s : State, processLine (L ++ [a, b]) s = processLine (L ++ [a', b']) s)

/-- The ten rejection codes are 0x01 to 0x0A in the order of R112's table; no other number belongs to a rejection, and no two
rejections share one. -/
def Obligations.RejectionsAreNumberedOneToTen : Prop :=
  rejectNumber .framingOverflow = 0x01 ∧ rejectNumber .badLength = 0x02 ∧ rejectNumber .badPrefix = 0x03 ∧
  rejectNumber .badSuffix = 0x04 ∧ rejectNumber .checksumMismatch = 0x05 ∧ rejectNumber .unknownVerb = 0x06 ∧
  rejectNumber .fieldCount = 0x07 ∧ rejectNumber .malformedNumeric = 0x08 ∧ rejectNumber .outOfRange = 0x09 ∧
  rejectNumber .badUnit = 0x0A ∧
  (∀ code : RejectCode, 1 ≤ (rejectNumber code).toNat ∧ (rejectNumber code).toNat ≤ 10) ∧
  (∀ c1 c2 : RejectCode, rejectNumber c1 = rejectNumber c2 → c1 = c2)
end

