-- ==== Sys2Proof/Laws/State.lean ====
section
/-! SUPPORT. One lemma per field and named update, so that no proof unfolds a record update. -/

namespace Sys2Proof
namespace Machine

@[simp] theorem emit_fb (ev : Event) (s : State) : (emit ev s).fb = s.fb := rfl
@[simp] theorem emit_dr (ev : Event) (s : State) : (emit ev s).dr = s.dr := rfl
@[simp] theorem emit_di (ev : Event) (s : State) : (emit ev s).di = s.di := rfl
@[simp] theorem emit_pr (ev : Event) (s : State) : (emit ev s).pr = s.pr := rfl
@[simp] theorem emit_pi (ev : Event) (s : State) : (emit ev s).pi = s.pi := rfl
@[simp] theorem emit_corr (ev : Event) (s : State) : (emit ev s).corr = s.corr := rfl
@[simp] theorem emit_out (ev : Event) (s : State) : (emit ev s).out = s.out ++ [ev] := rfl
@[simp] theorem emit_pulseQ (ev : Event) (s : State) : (emit ev s).pulseQ = s.pulseQ := rfl
@[simp] theorem emit_timerQ (ev : Event) (s : State) : (emit ev s).timerQ = s.timerQ := rfl
@[simp] theorem emit_serialQ (ev : Event) (s : State) : (emit ev s).serialQ = s.serialQ := rfl
@[simp] theorem emit_hostQ (ev : Event) (s : State) : (emit ev s).hostQ = s.hostQ := rfl
@[simp] theorem emit_schedule (ev : Event) (s : State) : (emit ev s).schedule = s.schedule := rfl
@[simp] theorem emit_cfg (ev : Event) (s : State) : (emit ev s).cfg = s.cfg := rfl

@[simp] theorem reject_fb (code : RejectCode) (s : State) : (reject code s).fb = s.fb := rfl
@[simp] theorem reject_dr (code : RejectCode) (s : State) : (reject code s).dr = s.dr := rfl
@[simp] theorem reject_di (code : RejectCode) (s : State) : (reject code s).di = s.di := rfl
@[simp] theorem reject_pr (code : RejectCode) (s : State) : (reject code s).pr = s.pr := rfl
@[simp] theorem reject_pi (code : RejectCode) (s : State) : (reject code s).pi = s.pi := rfl
@[simp] theorem reject_corr (code : RejectCode) (s : State) : (reject code s).corr = s.corr := rfl
@[simp] theorem reject_out (code : RejectCode) (s : State) : (reject code s).out = s.out ++ [.reject code] := rfl
@[simp] theorem reject_pulseQ (code : RejectCode) (s : State) : (reject code s).pulseQ = s.pulseQ := rfl
@[simp] theorem reject_timerQ (code : RejectCode) (s : State) : (reject code s).timerQ = s.timerQ := rfl
@[simp] theorem reject_serialQ (code : RejectCode) (s : State) : (reject code s).serialQ = s.serialQ := rfl
@[simp] theorem reject_hostQ (code : RejectCode) (s : State) : (reject code s).hostQ = s.hostQ := rfl
@[simp] theorem reject_schedule (code : RejectCode) (s : State) : (reject code s).schedule = s.schedule := rfl
@[simp] theorem reject_cfg (code : RejectCode) (s : State) : (reject code s).cfg = s.cfg := rfl

@[simp] theorem refuseReserved_fb (op : Byte) (s : State) : (refuseReserved op s).fb = s.fb := rfl
@[simp] theorem refuseReserved_dr (op : Byte) (s : State) : (refuseReserved op s).dr = s.dr := rfl
@[simp] theorem refuseReserved_di (op : Byte) (s : State) : (refuseReserved op s).di = s.di := rfl
@[simp] theorem refuseReserved_pr (op : Byte) (s : State) : (refuseReserved op s).pr = s.pr := rfl
@[simp] theorem refuseReserved_pi (op : Byte) (s : State) : (refuseReserved op s).pi = s.pi := rfl
@[simp] theorem refuseReserved_corr (op : Byte) (s : State) : (refuseReserved op s).corr = s.corr := rfl
@[simp] theorem refuseReserved_out (op : Byte) (s : State) : (refuseReserved op s).out = s.out ++ [.refused op] := rfl
@[simp] theorem refuseReserved_pulseQ (op : Byte) (s : State) : (refuseReserved op s).pulseQ = s.pulseQ := rfl
@[simp] theorem refuseReserved_timerQ (op : Byte) (s : State) : (refuseReserved op s).timerQ = s.timerQ := rfl
@[simp] theorem refuseReserved_serialQ (op : Byte) (s : State) : (refuseReserved op s).serialQ = s.serialQ := rfl
@[simp] theorem refuseReserved_hostQ (op : Byte) (s : State) : (refuseReserved op s).hostQ = s.hostQ := rfl
@[simp] theorem refuseReserved_schedule (op : Byte) (s : State) : (refuseReserved op s).schedule = s.schedule := rfl
@[simp] theorem refuseReserved_cfg (op : Byte) (s : State) : (refuseReserved op s).cfg = s.cfg := rfl

@[simp] theorem clearFrame_fb (s : State) : (clearFrame s).fb = [] := rfl
@[simp] theorem clearFrame_dr (s : State) : (clearFrame s).dr = s.dr := rfl
@[simp] theorem clearFrame_di (s : State) : (clearFrame s).di = s.di := rfl
@[simp] theorem clearFrame_pr (s : State) : (clearFrame s).pr = s.pr := rfl
@[simp] theorem clearFrame_pi (s : State) : (clearFrame s).pi = s.pi := rfl
@[simp] theorem clearFrame_corr (s : State) : (clearFrame s).corr = s.corr := rfl
@[simp] theorem clearFrame_out (s : State) : (clearFrame s).out = s.out := rfl
@[simp] theorem clearFrame_pulseQ (s : State) : (clearFrame s).pulseQ = s.pulseQ := rfl
@[simp] theorem clearFrame_timerQ (s : State) : (clearFrame s).timerQ = s.timerQ := rfl
@[simp] theorem clearFrame_serialQ (s : State) : (clearFrame s).serialQ = s.serialQ := rfl
@[simp] theorem clearFrame_hostQ (s : State) : (clearFrame s).hostQ = s.hostQ := rfl
@[simp] theorem clearFrame_schedule (s : State) : (clearFrame s).schedule = s.schedule := rfl
@[simp] theorem clearFrame_cfg (s : State) : (clearFrame s).cfg = s.cfg := rfl

@[simp] theorem dropOldestByte_fb (s : State) : (dropOldestByte s).fb = s.fb.tail := rfl
@[simp] theorem dropOldestByte_dr (s : State) : (dropOldestByte s).dr = s.dr := rfl
@[simp] theorem dropOldestByte_di (s : State) : (dropOldestByte s).di = s.di := rfl
@[simp] theorem dropOldestByte_pr (s : State) : (dropOldestByte s).pr = s.pr := rfl
@[simp] theorem dropOldestByte_pi (s : State) : (dropOldestByte s).pi = s.pi := rfl
@[simp] theorem dropOldestByte_corr (s : State) : (dropOldestByte s).corr = s.corr := rfl
@[simp] theorem dropOldestByte_out (s : State) : (dropOldestByte s).out = s.out := rfl
@[simp] theorem dropOldestByte_pulseQ (s : State) : (dropOldestByte s).pulseQ = s.pulseQ := rfl
@[simp] theorem dropOldestByte_timerQ (s : State) : (dropOldestByte s).timerQ = s.timerQ := rfl
@[simp] theorem dropOldestByte_serialQ (s : State) : (dropOldestByte s).serialQ = s.serialQ := rfl
@[simp] theorem dropOldestByte_hostQ (s : State) : (dropOldestByte s).hostQ = s.hostQ := rfl
@[simp] theorem dropOldestByte_schedule (s : State) : (dropOldestByte s).schedule = s.schedule := rfl
@[simp] theorem dropOldestByte_cfg (s : State) : (dropOldestByte s).cfg = s.cfg := rfl

@[simp] theorem appendByte_fb (b : Byte) (s : State) : (appendByte b s).fb = s.fb ++ [b] := rfl
@[simp] theorem appendByte_dr (b : Byte) (s : State) : (appendByte b s).dr = s.dr := rfl
@[simp] theorem appendByte_di (b : Byte) (s : State) : (appendByte b s).di = s.di := rfl
@[simp] theorem appendByte_pr (b : Byte) (s : State) : (appendByte b s).pr = s.pr := rfl
@[simp] theorem appendByte_pi (b : Byte) (s : State) : (appendByte b s).pi = s.pi := rfl
@[simp] theorem appendByte_corr (b : Byte) (s : State) : (appendByte b s).corr = s.corr := rfl
@[simp] theorem appendByte_out (b : Byte) (s : State) : (appendByte b s).out = s.out := rfl
@[simp] theorem appendByte_pulseQ (b : Byte) (s : State) : (appendByte b s).pulseQ = s.pulseQ := rfl
@[simp] theorem appendByte_timerQ (b : Byte) (s : State) : (appendByte b s).timerQ = s.timerQ := rfl
@[simp] theorem appendByte_serialQ (b : Byte) (s : State) : (appendByte b s).serialQ = s.serialQ := rfl
@[simp] theorem appendByte_hostQ (b : Byte) (s : State) : (appendByte b s).hostQ = s.hostQ := rfl
@[simp] theorem appendByte_schedule (b : Byte) (s : State) : (appendByte b s).schedule = s.schedule := rfl
@[simp] theorem appendByte_cfg (b : Byte) (s : State) : (appendByte b s).cfg = s.cfg := rfl

@[simp] theorem writeSample_fb (code : Nat) (s : State) : (writeSample code s).fb = s.fb := rfl
@[simp] theorem writeSample_dr (code : Nat) (s : State) : (writeSample code s).dr = s.dr.set s.di.val code s.di.isLt := rfl
@[simp] theorem writeSample_di (code : Nat) (s : State) : (writeSample code s).di = ringNext s.di := rfl
@[simp] theorem writeSample_pr (code : Nat) (s : State) : (writeSample code s).pr = s.pr := rfl
@[simp] theorem writeSample_pi (code : Nat) (s : State) : (writeSample code s).pi = s.pi := rfl
@[simp] theorem writeSample_corr (code : Nat) (s : State) : (writeSample code s).corr = s.corr := rfl
@[simp] theorem writeSample_out (code : Nat) (s : State) : (writeSample code s).out = s.out := rfl
@[simp] theorem writeSample_pulseQ (code : Nat) (s : State) : (writeSample code s).pulseQ = s.pulseQ := rfl
@[simp] theorem writeSample_timerQ (code : Nat) (s : State) : (writeSample code s).timerQ = s.timerQ := rfl
@[simp] theorem writeSample_serialQ (code : Nat) (s : State) : (writeSample code s).serialQ = s.serialQ := rfl
@[simp] theorem writeSample_hostQ (code : Nat) (s : State) : (writeSample code s).hostQ = s.hostQ := rfl
@[simp] theorem writeSample_schedule (code : Nat) (s : State) : (writeSample code s).schedule = s.schedule := rfl
@[simp] theorem writeSample_cfg (code : Nat) (s : State) : (writeSample code s).cfg = s.cfg := rfl

@[simp] theorem writePulse_fb (ts : Nat) (s : State) : (writePulse ts s).fb = s.fb := rfl
@[simp] theorem writePulse_dr (ts : Nat) (s : State) : (writePulse ts s).dr = s.dr := rfl
@[simp] theorem writePulse_di (ts : Nat) (s : State) : (writePulse ts s).di = s.di := rfl
@[simp] theorem writePulse_pr (ts : Nat) (s : State) : (writePulse ts s).pr = s.pr.set s.pi.val ts s.pi.isLt := rfl
@[simp] theorem writePulse_pi (ts : Nat) (s : State) : (writePulse ts s).pi = ringNext s.pi := rfl
@[simp] theorem writePulse_corr (ts : Nat) (s : State) : (writePulse ts s).corr = s.corr := rfl
@[simp] theorem writePulse_out (ts : Nat) (s : State) : (writePulse ts s).out = s.out := rfl
@[simp] theorem writePulse_pulseQ (ts : Nat) (s : State) : (writePulse ts s).pulseQ = s.pulseQ := rfl
@[simp] theorem writePulse_timerQ (ts : Nat) (s : State) : (writePulse ts s).timerQ = s.timerQ := rfl
@[simp] theorem writePulse_serialQ (ts : Nat) (s : State) : (writePulse ts s).serialQ = s.serialQ := rfl
@[simp] theorem writePulse_hostQ (ts : Nat) (s : State) : (writePulse ts s).hostQ = s.hostQ := rfl
@[simp] theorem writePulse_schedule (ts : Nat) (s : State) : (writePulse ts s).schedule = s.schedule := rfl
@[simp] theorem writePulse_cfg (ts : Nat) (s : State) : (writePulse ts s).cfg = s.cfg := rfl

@[simp] theorem writeCorr_fb (v : Nat) (s : State) : (writeCorr v s).fb = s.fb := rfl
@[simp] theorem writeCorr_dr (v : Nat) (s : State) : (writeCorr v s).dr = s.dr := rfl
@[simp] theorem writeCorr_di (v : Nat) (s : State) : (writeCorr v s).di = s.di := rfl
@[simp] theorem writeCorr_pr (v : Nat) (s : State) : (writeCorr v s).pr = s.pr := rfl
@[simp] theorem writeCorr_pi (v : Nat) (s : State) : (writeCorr v s).pi = s.pi := rfl
@[simp] theorem writeCorr_corr (v : Nat) (s : State) : (writeCorr v s).corr = BitVec.ofNat 9 v := rfl
@[simp] theorem writeCorr_out (v : Nat) (s : State) : (writeCorr v s).out = s.out := rfl
@[simp] theorem writeCorr_pulseQ (v : Nat) (s : State) : (writeCorr v s).pulseQ = s.pulseQ := rfl
@[simp] theorem writeCorr_timerQ (v : Nat) (s : State) : (writeCorr v s).timerQ = s.timerQ := rfl
@[simp] theorem writeCorr_serialQ (v : Nat) (s : State) : (writeCorr v s).serialQ = s.serialQ := rfl
@[simp] theorem writeCorr_hostQ (v : Nat) (s : State) : (writeCorr v s).hostQ = s.hostQ := rfl
@[simp] theorem writeCorr_schedule (v : Nat) (s : State) : (writeCorr v s).schedule = s.schedule := rfl
@[simp] theorem writeCorr_cfg (v : Nat) (s : State) : (writeCorr v s).cfg = s.cfg := rfl

@[simp] theorem resetBlock_fb (s : State) : (resetBlock s).fb = [] := rfl
@[simp] theorem resetBlock_dr (s : State) : (resetBlock s).dr = Vector.replicate Config.ringSize 0 := rfl
@[simp] theorem resetBlock_di (s : State) : (resetBlock s).di = 0 := rfl
@[simp] theorem resetBlock_pr (s : State) : (resetBlock s).pr = Vector.replicate Config.ringSize 0 := rfl
@[simp] theorem resetBlock_pi (s : State) : (resetBlock s).pi = 0 := rfl
@[simp] theorem resetBlock_corr (s : State) : (resetBlock s).corr = corrReset := rfl
@[simp] theorem resetBlock_out (s : State) : (resetBlock s).out = s.out := rfl
@[simp] theorem resetBlock_pulseQ (s : State) : (resetBlock s).pulseQ = s.pulseQ := rfl
@[simp] theorem resetBlock_timerQ (s : State) : (resetBlock s).timerQ = s.timerQ := rfl
@[simp] theorem resetBlock_serialQ (s : State) : (resetBlock s).serialQ = s.serialQ := rfl
@[simp] theorem resetBlock_hostQ (s : State) : (resetBlock s).hostQ = s.hostQ := rfl
@[simp] theorem resetBlock_schedule (s : State) : (resetBlock s).schedule = s.schedule := rfl
@[simp] theorem resetBlock_cfg (s : State) : (resetBlock s).cfg = s.cfg := rfl

@[simp] theorem setSchedule_fb (turns : List Source) (s : State) : (setSchedule turns s).fb = s.fb := rfl
@[simp] theorem setSchedule_dr (turns : List Source) (s : State) : (setSchedule turns s).dr = s.dr := rfl
@[simp] theorem setSchedule_di (turns : List Source) (s : State) : (setSchedule turns s).di = s.di := rfl
@[simp] theorem setSchedule_pr (turns : List Source) (s : State) : (setSchedule turns s).pr = s.pr := rfl
@[simp] theorem setSchedule_pi (turns : List Source) (s : State) : (setSchedule turns s).pi = s.pi := rfl
@[simp] theorem setSchedule_corr (turns : List Source) (s : State) : (setSchedule turns s).corr = s.corr := rfl
@[simp] theorem setSchedule_out (turns : List Source) (s : State) : (setSchedule turns s).out = s.out := rfl
@[simp] theorem setSchedule_pulseQ (turns : List Source) (s : State) : (setSchedule turns s).pulseQ = s.pulseQ := rfl
@[simp] theorem setSchedule_timerQ (turns : List Source) (s : State) : (setSchedule turns s).timerQ = s.timerQ := rfl
@[simp] theorem setSchedule_serialQ (turns : List Source) (s : State) : (setSchedule turns s).serialQ = s.serialQ := rfl
@[simp] theorem setSchedule_hostQ (turns : List Source) (s : State) : (setSchedule turns s).hostQ = s.hostQ := rfl
@[simp] theorem setSchedule_schedule (turns : List Source) (s : State) : (setSchedule turns s).schedule = turns := rfl
@[simp] theorem setSchedule_cfg (turns : List Source) (s : State) : (setSchedule turns s).cfg = s.cfg := rfl

@[simp] theorem setPending_fb (src : Source) (q : List Txn) (s : State) : (setPending src q s).fb = s.fb := by cases src <;> rfl
@[simp] theorem setPending_dr (src : Source) (q : List Txn) (s : State) : (setPending src q s).dr = s.dr := by cases src <;> rfl
@[simp] theorem setPending_di (src : Source) (q : List Txn) (s : State) : (setPending src q s).di = s.di := by cases src <;> rfl
@[simp] theorem setPending_pr (src : Source) (q : List Txn) (s : State) : (setPending src q s).pr = s.pr := by cases src <;> rfl
@[simp] theorem setPending_pi (src : Source) (q : List Txn) (s : State) : (setPending src q s).pi = s.pi := by cases src <;> rfl
@[simp] theorem setPending_corr (src : Source) (q : List Txn) (s : State) : (setPending src q s).corr = s.corr := by cases src <;> rfl
@[simp] theorem setPending_out (src : Source) (q : List Txn) (s : State) : (setPending src q s).out = s.out := by cases src <;> rfl
@[simp] theorem setPending_schedule (src : Source) (q : List Txn) (s : State) : (setPending src q s).schedule = s.schedule := by cases src <;> rfl
@[simp] theorem setPending_cfg (src : Source) (q : List Txn) (s : State) : (setPending src q s).cfg = s.cfg := by cases src <;> rfl

@[simp] theorem conclude_ok (ev : Event) (s : State) : conclude (.ok ev) s = emit ev s := rfl
@[simp] theorem conclude_error (code : RejectCode) (s : State) : conclude (.error code) s = emit (.reject code) s := rfl

/-- The event a line's verdict becomes. -/
def verdictEvent (verdict : Except RejectCode Event) : Event :=
  match verdict with
  | .ok ev => ev
  | .error code => .reject code

/-- A verdict, accepted or rejected, is one event and nothing else. -/
theorem conclude_eq_emit (verdict : Except RejectCode Event) (s : State) :
    conclude verdict s = emit (verdictEvent verdict) s := by
  cases verdict <;> rfl

/-- Reading a queue back: the queue written, and every other one as before. -/
theorem pending_setPending (a b : Source) (q : List Txn) (s : State) :
    pending a (setPending b q s) = if a = b then q else pending a s := by
  cases a <;> cases b <;> rfl

@[simp] theorem pending_setSchedule (a : Source) (turns : List Source) (s : State) :
    pending a (setSchedule turns s) = pending a s := by
  cases a <;> rfl

end Machine
end Sys2Proof
end

