-- ==== Sys2Proof/Laws/Exec.lean ====
section
/-! SUPPORT. What each instruction, line, transaction and turn can do, said once in terms of the named updates. -/

namespace Sys2Proof
namespace Machine

/-- What PROCESS_LINE concludes of a line: the checks, then REG's parser. -/
def lineVerdict (L : Str) : Except RejectCode Event :=
  match decodeSentence L with
  | .error code => .error code
  | .ok t => applyVerb t.verb t.talker t.fields

/-- The one event of a line. -/
def lineEvent (L : Str) : Event := verdictEvent (lineVerdict L)

/-- PROCESS_LINE: one event, nothing else. -/
theorem processLine_eq (L : Str) (s : State) : processLine L s = .next (emit (lineEvent L) s) := by
  unfold processLine lineEvent lineVerdict
  cases h : decodeSentence L with
  | error code => rfl
  | ok t =>
    cases hv : t.verb <;>
      simp [hv, execMwv, execVtg, execDpt, execHdm, conclude_eq_emit]

/-- A line that decodes runs its instruction. -/
theorem processLine_of_decode {L : Str} {t : Sentence} (h : decodeSentence L = .ok t) (s : State) :
    processLine L s = exec t.toInstr s := by
  unfold processLine Sentence.toInstr
  rw [h]
  cases hv : t.verb <;> simp [hv, exec]

/-- RX_BYTE of an LF. -/
theorem execRxByte_lf (s : State) :
    execRxByte Chr.lf s = .next (emit (lineEvent (completedLine s.fb)) (clearFrame s)) := by
  simp [execRxByte, processLine_eq]

/-- RX_BYTE of any other byte. -/
theorem execRxByte_other {b : Byte} (h : b ≠ Chr.lf) (s : State) : execRxByte b s = .next (receiveByte b s) := by
  rw [execRxByte, if_neg h]

/-- FB after a byte other than LF, and the events of it. -/
def frameWith (b : Byte) (fb : Str) : Str := if fb.length = Config.frameCap then fb.tail ++ [b] else fb ++ [b]

def overflowEvents (fb : Str) : List Event := if fb.length = Config.frameCap then [.reject .framingOverflow] else []

/-- A byte other than LF: FB and OUT change, nothing else. -/
theorem receiveByte_eq (b : Byte) (s : State) :
    receiveByte b s = { s with fb := frameWith b s.fb, out := s.out ++ overflowEvents s.fb } := by
  unfold receiveByte frameWith overflowEvents
  by_cases h : s.fb.length = Config.frameCap
  · rw [if_pos h, if_pos h, if_pos h]; rfl
  · rw [if_neg h, if_neg h, if_neg h, List.append_nil]; rfl

/-- The events of a report. -/
def reportEvents (s : State) : List Event :=
  .reading (reportHeading s) (reportSpeed s) ::
    (if s.cfg.autoEmitMwv then [.tx (mwvSentence s.cfg.roundTies (reportHeading s) (reportSpeed s))] else [])

/-- A report changes OUT alone. -/
theorem report_eq (s : State) : report s = { s with out := s.out ++ reportEvents s } := by
  unfold report reportEvents
  by_cases h : s.cfg.autoEmitMwv = true
  · rw [if_pos h, if_pos h]; simp [emit]
  · rw [if_neg h, if_neg h]; rfl

/-- The events of a TICK. -/
def tickEvents (code : Nat) (s : State) : List Event :=
  if ringNext s.di = 0 then reportEvents (writeSample code s) else []

/-- The next state of an instruction. -/
def after (i : Instr) (s : State) : State :=
  match i with
  | .reset => resetBlock s
  | .rxByte b =>
    { s with
      fb := if b = Chr.lf then [] else frameWith b s.fb
      out := s.out ++ (if b = Chr.lf then [lineEvent (completedLine s.fb)] else overflowEvents s.fb) }
  | .pulse ts => writePulse ts s
  | .tick code =>
    { s with
      dr := s.dr.set s.di.val code s.di.isLt
      di := ringNext s.di
      out := s.out ++ tickEvents code s }
  | .setCorr n => writeCorr (n.toInt % 360).toNat s
  | .getCorr => emit (.corrVal s.corr.toNat) s
  | .encode talker verb fields => emit (.tx (encodeOut talker verb fields)) s
  | .emitMwv h q => emit (.tx (mwvSentence s.cfg.roundTies h.toNat q)) s
  | .emitHdm h => emit (.tx (hdmSentence h.toNat)) s
  | .mwv talker fields => emit (verdictEvent (parseMwv talker fields)) s
  | .vtg talker fields => emit (verdictEvent (parseVtg talker fields)) s
  | .dpt talker fields => emit (verdictEvent (parseDpt talker fields)) s
  | .hdm _ _ => emit (.reject .unknownVerb) s

/-- Every instruction completes, in the state that `after` names. -/
theorem exec_eq_after (i : Instr) (s : State) : exec i s = .next (after i s) := by
  cases i with
  | rxByte b =>
    by_cases h : b = Chr.lf
    · subst h; exact execRxByte_lf s
    · rw [exec, execRxByte_other h, receiveByte_eq, after, if_neg h, if_neg h]
  | mwv talker fields => simp [exec, after, execMwv, applyVerb, conclude_eq_emit]
  | vtg talker fields => simp [exec, after, execVtg, applyVerb, conclude_eq_emit]
  | dpt talker fields => simp [exec, after, execDpt, applyVerb, conclude_eq_emit]
  | hdm talker fields => rfl
  | reset => rfl
  | pulse ts => rfl
  | tick code =>
    show Host.Outcome.next (if ringNext s.di = 0 then report (writeSample code s) else writeSample code s) = _
    unfold after tickEvents
    by_cases h : ringNext s.di = 0
    · rw [if_pos h, report_eq]; simp only [if_pos h]; rfl
    · rw [if_neg h]; simp only [if_neg h, List.append_nil]; rfl
  | setCorr n => rfl
  | getCorr => rfl
  | encode talker verb fields => rfl
  | emitMwv h q => rfl
  | emitHdm h => rfl

/-- What an issued transaction does, by how it decodes. -/
theorem execTxn_ok {t : Txn} {s : State} {i : Instr} (h : decodeTxn s.cfg t = .ok i) :
    execTxn t s = .next (after i s) := by
  simp [execTxn, h, exec_eq_after]

theorem execTxn_reserved {t : Txn} {s : State} {op : Byte} (h : decodeTxn s.cfg t = .error (.reserved op)) :
    execTxn t s = .next (emit (.refused op) s) := by
  simp [execTxn, h, refuseReserved]

theorem execTxn_operands {t : Txn} {s : State} {op : Byte} (h : decodeTxn s.cfg t = .error (.operands op)) :
    execTxn t s = .refused (.operandsNotOfType op) := by
  simp [execTxn, h]

/-- A transaction that answers a next state decodes, or is reserved. -/
theorem execTxn_next {x : Txn} {s t : State} (h : execTxn x s = .next t) :
    (∃ i, decodeTxn s.cfg x = .ok i ∧ t = after i s) ∨
    (∃ op, decodeTxn s.cfg x = .error (.reserved op) ∧ t = emit (.refused op) s) := by
  cases hd : decodeTxn s.cfg x with
  | ok i =>
    rw [execTxn_ok hd] at h
    exact .inl ⟨i, rfl, by injection h with h; exact h.symm⟩
  | error e =>
    cases e with
    | reserved op =>
      rw [execTxn_reserved hd] at h
      exact .inr ⟨op, rfl, by injection h with h; exact h.symm⟩
    | operands op =>
      rw [execTxn_operands hd] at h
      cases h

/-- A step: idle, an empty turn, or one transaction. -/
theorem step_eq (s : State) :
    step s =
      match s.schedule with
      | [] => .next s
      | src :: turns =>
        match pending src s with
        | [] => .next (setSchedule turns s)
        | x :: rest => execTxn x (setSchedule turns (setPending src rest s)) := by
  unfold step nextInput
  cases s.schedule with
  | nil => rfl
  | cons src turns =>
    cases h : pending src s <;> simp [h]

/-- Running two lists of transactions one after the other. -/
theorem runTxns_append (a b : List Txn) (s : State) :
    runTxns (a ++ b) s =
      match runTxns a s with
      | .next t => runTxns b t
      | .fault r => .fault r
      | .refused r => .refused r := by
  induction a generalizing s with
  | nil => rfl
  | cons x rest ih =>
    simp only [List.cons_append, runTxns]
    cases execTxn x s with
    | next t => exact ih t
    | fault r => cases r
    | refused r => rfl

/-- Running a list whose first part answers a next state. -/
theorem runTxns_append_next {a b : List Txn} {s t : State} (h : runTxns a s = .next t) :
    runTxns (a ++ b) s = runTxns b t := by
  rw [runTxns_append, h]

end Machine
end Sys2Proof
end

