-- ==== Sys2Proof/Laws/Text.lean ====
section
/-! SUPPORT. The text primitives: widths, the tokenizer, the checksum, hex digits, and the positions of a wrapped line. -/

namespace Sys2Proof

/-- The width check is the bound it stands for. -/
theorem fitsBits_iff (w v : Nat) : fitsBits w v = true ↔ v < 2 ^ w := by
  unfold fitsBits
  rw [beq_iff_eq]
  exact ⟨fun h => h ▸ Nat.mod_lt _ (Nat.two_pow_pos w), Nat.mod_eq_of_lt⟩

theorem lacks_iff (c : Byte) (s : Str) : lacks c s = true ↔ c ∉ s := by
  rw [lacks, List.all_eq_true]
  exact ⟨fun h hc => bne_iff_ne.1 (h c hc) rfl, fun h x hx => bne_iff_ne.2 fun e => h (e ▸ hx)⟩

theorem lacks_append (c : Byte) (s t : Str) : lacks c (s ++ t) = true ↔ lacks c s = true ∧ lacks c t = true := by
  simp [lacks_iff]

theorem lacks_cons (c b : Byte) (s : Str) : lacks c (b :: s) = true ↔ b ≠ c ∧ lacks c s = true := by
  rw [lacks, List.all_cons, Bool.and_eq_true, bne_iff_ne]
  rfl

/-! ### The tokenizer and the join -/

theorem split_ne_nil (body : Str) : split body ≠ [] := by
  induction body with
  | nil => simp [split]
  | cons b bs ih =>
    unfold split
    split
    · simp
    · split <;> simp

/-- Tokenizing at a byte that is no comma extends the first field. -/
theorem split_cons_other {b : Byte} (h : b ≠ Chr.comma) (bs : Str) :
    ∃ f fs, split bs = f :: fs ∧ split (b :: bs) = (b :: f) :: fs := by
  cases hs : split bs with
  | nil => exact absurd hs (split_ne_nil bs)
  | cons f fs => exact ⟨f, fs, rfl, by rw [split, if_neg h, hs]⟩

theorem split_cons_comma (bs : Str) : split (Chr.comma :: bs) = [] :: split bs := by
  rw [split, if_pos rfl]

/-- A comma-free prefix belongs to the first field. -/
theorem split_append_comma {f : Str} (h : lacks Chr.comma f = true) (rest : Str) :
    split (f ++ Chr.comma :: rest) = f :: split rest := by
  induction f with
  | nil => exact split_cons_comma rest
  | cons b bs ih =>
    obtain ⟨hb, hbs⟩ := (lacks_cons _ _ _).1 h
    obtain ⟨g, gs, h1, h2⟩ := split_cons_other hb (bs ++ Chr.comma :: rest)
    rw [List.cons_append, h2]
    rw [ih hbs] at h1
    injection h1 with e1 e2
    rw [← e1, ← e2]

theorem split_of_lacks {f : Str} (h : lacks Chr.comma f = true) : split f = [f] := by
  induction f with
  | nil => rfl
  | cons b bs ih =>
    obtain ⟨hb, hbs⟩ := (lacks_cons _ _ _).1 h
    obtain ⟨g, gs, h1, h2⟩ := split_cons_other hb bs
    rw [ih hbs] at h1
    injection h1 with e1 e2
    rw [h2, ← e1, ← e2]

/-- Joined fields without commas are cut up into the same fields. -/
theorem split_join {fields : List Str} (hne : fields ≠ []) (h : fields.all (lacks Chr.comma) = true) :
    split (join fields) = fields := by
  induction fields with
  | nil => exact absurd rfl hne
  | cons f rest ih =>
    rw [List.all_cons, Bool.and_eq_true] at h
    cases rest with
    | nil => exact split_of_lacks h.1
    | cons g gs =>
      rw [join, split_append_comma h.1, ih (by simp) h.2]

theorem join_cons_ne {rest : List Str} (f : Str) (h : rest ≠ []) : join (f :: rest) = f ++ Chr.comma :: join rest := by
  cases rest with
  | nil => exact absurd rfl h
  | cons g gs => rfl

theorem join_head_cons (b : Byte) (f : Str) (fs : List Str) : join ((b :: f) :: fs) = b :: join (f :: fs) := by
  cases fs <;> rfl

/-- The tokenizer loses nothing. -/
theorem join_split (body : Str) : join (split body) = body := by
  induction body with
  | nil => rfl
  | cons b bs ih =>
    by_cases hb : b = Chr.comma
    · subst hb
      rw [split_cons_comma, join_cons_ne _ (split_ne_nil bs), ih]; rfl
    · obtain ⟨f, fs, h1, h2⟩ := split_cons_other hb bs
      rw [h2, join_head_cons, ← h1, ih]

theorem split_all_lacks (body : Str) : (split body).all (lacks Chr.comma) = true := by
  induction body with
  | nil => rfl
  | cons b bs ih =>
    by_cases hb : b = Chr.comma
    · subst hb
      rw [split_cons_comma, List.all_cons, ih]; rfl
    · obtain ⟨f, fs, h1, h2⟩ := split_cons_other hb bs
      rw [h1, List.all_cons, Bool.and_eq_true] at ih
      rw [h2, List.all_cons, Bool.and_eq_true]
      exact ⟨(lacks_cons _ _ _).2 ⟨hb, ih.1⟩, ih.2⟩

theorem join_length (fields : List Str) : (join fields).length = joinedLength fields := by
  induction fields with
  | nil => rfl
  | cons f rest ih =>
    cases rest with
    | nil => simp [join, joinedLength]
    | cons g gs =>
      rw [join, List.length_append, List.length_cons, ih]
      simp only [joinedLength, List.map_cons, List.sum_cons, List.length_cons]
      omega

theorem join_lacks {c : Byte} (hc : c ≠ Chr.comma) (fields : List Str) :
    lacks c (join fields) = true ↔ fields.all (lacks c) = true := by
  induction fields with
  | nil => simp [join, lacks]
  | cons f rest ih =>
    cases rest with
    | nil => simp [join]
    | cons g gs =>
      rw [join, lacks_append, lacks_cons, ih, List.all_cons (a := f), Bool.and_eq_true]
      exact ⟨fun h => ⟨h.1, h.2.2⟩, fun h => ⟨h.1, hc.symm, h.2⟩⟩

/-! ### Checksum and hex digits -/

theorem foldl_xor (s : Str) (a : Byte) : s.foldl (· ^^^ ·) a = a ^^^ s.foldr (· ^^^ ·) 0 := by
  induction s generalizing a with
  | nil => simp
  | cons b bs ih => rw [List.foldl_cons, ih, List.foldr_cons, BitVec.xor_assoc]

theorem xsum_eq_xorAll (s : Str) : xsum s = Machine.xorAll s := by
  rw [xsum, foldl_xor]; simp [Machine.xorAll]

theorem xsum_cons (b : Byte) (s : Str) : xsum (b :: s) = b ^^^ xsum s := by
  rw [xsum_eq_xorAll, xsum_eq_xorAll]; rfl

theorem xsum_append (s t : Str) : xsum (s ++ t) = xsum s ^^^ xsum t := by
  induction s with
  | nil => simp [xsum]
  | cons b bs ih => rw [List.cons_append, xsum_cons, xsum_cons, ih, BitVec.xor_assoc]

/-- A digit written is read back (R57, R58). -/
theorem hexval_hexDigit : ∀ d : Fin 16, hexval (hexDigit d.val) = some d.val := by decide

theorem hexval_lt {c : Byte} {d : Nat} (h : hexval c = some d) : d < 16 := by
  have : c.toNat < 256 := c.isLt
  unfold hexval at h
  simp only at h
  split_ifs at h <;> injection h with h <;> omega

/-- The two digits of HEX2 spell the byte, and neither is a line feed, a star or a comma. -/
theorem hex2_digits (x : Byte) :
    ∃ hi lo, hex2 x = [hexDigit hi, hexDigit lo] ∧ hi < 16 ∧ lo < 16 ∧ BitVec.ofNat 8 (hi * 16 + lo) = x := by
  refine ⟨x.toNat / 16, x.toNat % 16, rfl, by have := x.isLt; omega, by omega, ?_⟩
  have h : x.toNat / 16 * 16 + x.toNat % 16 = x.toNat := by omega
  rw [h]; simp

theorem hexDigit_ne_lf : ∀ d : Fin 16, hexDigit d.val ≠ Chr.lf := by decide

theorem lacks_lf_hex2 (x : Byte) : lacks Chr.lf (hex2 x) = true := by
  obtain ⟨hi, lo, h, h1, h2, -⟩ := hex2_digits x
  rw [h, lacks_cons, lacks_cons]
  exact ⟨hexDigit_ne_lf ⟨hi, h1⟩, hexDigit_ne_lf ⟨lo, h2⟩, rfl⟩

/-! ### The positions of a wrapped line -/

theorem wrapLine_length (content : Str) : (wrapLine content).length = content.length + 4 := by
  simp [wrapLine, hex2]

theorem checksumRegion_wrapLine (content : Str) (h : content ≠ []) : checksumRegion (wrapLine content) = content := by
  have hl : 0 < content.length := List.length_pos_iff.2 h
  have e : content.length + 4 - 4 + 1 - 1 = content.length := by omega
  rw [checksumRegion, slice, wrapLine_length, e]
  simp [wrapLine]

theorem byteAt_append_right (a b : Str) (i : Nat) (h : a.length ≤ i) : byteAt (a ++ b) i = byteAt b (i - a.length) := by
  simp [byteAt, List.getD_eq_getElem?_getD, List.getElem?_append_right h]

theorem byteAt_append_left (a b : Str) (i : Nat) (h : i < a.length) : byteAt (a ++ b) i = byteAt a i := by
  simp [byteAt, List.getD_eq_getElem?_getD, List.getElem?_append_left h]

/-- The suffix of a wrapped line spells its checksum. -/
theorem checksumField_wrapLine (content : Str) : checksumField (wrapLine content) = some (xsum content) := by
  obtain ⟨hi, lo, hh, h1, h2, hx⟩ := hex2_digits (xsum content)
  have hw : wrapLine content = (Chr.dollar :: content) ++ [Chr.star, hexDigit hi, hexDigit lo] := by
    simp [wrapLine, hh]
  have hl : (Chr.dollar :: content).length = content.length + 1 := rfl
  unfold checksumField
  simp only [wrapLine_length]
  rw [hw, byteAt_append_right _ _ _ (by rw [hl]; omega), byteAt_append_right _ _ _ (by rw [hl]; omega),
    byteAt_append_right _ _ _ (by rw [hl]; omega), hl]
  rw [show content.length + 4 - 3 - (content.length + 1) = 0 by omega,
    show content.length + 4 - 2 - (content.length + 1) = 1 by omega,
    show content.length + 4 - 1 - (content.length + 1) = 2 by omega]
  have e1 : hexval (hexDigit hi) = some hi := hexval_hexDigit ⟨hi, h1⟩
  have e2 : hexval (hexDigit lo) = some lo := hexval_hexDigit ⟨lo, h2⟩
  simp [byteAt, e1, e2, hx]

/-- The verb map read both ways. -/
theorem verbOf_key (v : SentenceVerb) : verbOf (verbBytesOfKey v.key) = some v := by
  cases v <;> decide

/-- A wrapped talker, verb and body is decoded into the same (R55). -/
theorem decodeSentence_wrapLine (talker : Talker) (v : SentenceVerb) (body : Str) (h : body ≠ []) :
    decodeSentence (wrapLine (talker.bytes ++ (verbBytesOfKey v.key).bytes ++ body)) = .ok ⟨v, talker, split body⟩ := by
  have hb : 0 < body.length := List.length_pos_iff.2 h
  set content := talker.bytes ++ (verbBytesOfKey v.key).bytes ++ body with hc
  have hlen : content.length = body.length + 5 := by
    simp [hc, Talker.bytes, VerbBytes.bytes]
  have hne : content ≠ [] := by
    intro e; rw [e] at hlen; simp at hlen
  unfold decodeSentence
  rw [if_neg (by rw [wrapLine_length, hlen]; simp only [Config.minLine]; omega),
    if_neg (by simp [byteAt, wrapLine]), checksumField_wrapLine]
  simp only
  rw [if_neg (by rw [checksumRegion_wrapLine content hne]; simp)]
  have hverb : lineVerb (wrapLine content) = verbBytesOfKey v.key := by
    simp [lineVerb, byteAt, wrapLine, hc, Talker.bytes, VerbBytes.bytes]
  have htalk : lineTalker (wrapLine content) = talker := by
    simp [lineTalker, byteAt, wrapLine, hc, Talker.bytes]
  have hbody : lineBody (wrapLine content) = body := by
    simp only [lineBody, slice, wrapLine_length, hlen]
    simp only [wrapLine, hc, Talker.bytes, VerbBytes.bytes]
    have : body.length + 5 + 4 - 4 + 1 - 6 = body.length := by omega
    rw [this]
    simp
  rw [hverb, htalk, hbody, verbOf_key]

end Sys2Proof
end

