-- ==== Sys2Proof/Laws/Lines.lean ====
section
/-! SUPPORT. Lines and selectors read backwards: what a line that decodes, or fails a check, is like. -/

namespace Sys2Proof
open Machine

/-- A part of a string lacks what the string lacks. -/
theorem lacks_of_subset {c : Byte} {a b : Str} (h : ∀ x ∈ a, x ∈ b) (hb : lacks c b = true) : lacks c a = true :=
  (lacks_iff _ _).2 fun hc => (lacks_iff _ _).1 hb (h c hc)

/-- The reserved selectors (R48, R50). -/
theorem selectorOf_none {op : Byte} (h : 9 ≤ op.toNat) : selectorOf op = none := by
  unfold selectorOf
  split <;> first | omega | rfl

/-- The selector map read both ways (R48). -/
theorem selectorOf_some {op : Byte} {sel : Selector} (h : selectorOf op = some sel) : op = sel.op := by
  revert h
  unfold selectorOf
  have h2 : ∀ n : Nat, op.toNat = n → op = BitVec.ofNat 8 n := by
    intro n hn; rw [← hn]; simp
  split <;> intro h <;> first | (injection h with h; subst h; apply h2; assumption) | cases h

/-- The digits of HEX2 are the lower-case ones (R58). -/
theorem hexDigit_eq_lowerHex (d : Fin 16) : hexDigit d.val = lowerHex.getD d.val 0 := by revert d; decide

/-- A byte changed by an exclusive or changes the checksum by the same (R111). -/
theorem xsum_set_xor :
    ∀ (l : Str) (k : Nat) (old d : Byte), l[k]? = some old → xsum (l.set k (old ^^^ d)) = xsum l ^^^ d := by
  intro l
  induction l with
  | nil => intro k o d h; simp at h
  | cons b bs ih =>
    intro k o d h
    cases k with
    | zero => simp at h; subst h; rw [List.set_cons_zero, xsum_cons, xsum_cons, BitVec.xor_assoc, BitVec.xor_comm d, BitVec.xor_assoc]
    | succ k => rw [List.set_cons_succ, xsum_cons, xsum_cons, ih k o d (by simpa using h), BitVec.xor_assoc]

/-- The join is the library's. -/
theorem join_eq_intercalate (fs : List Str) : join fs = List.intercalate [Chr.comma] fs := by
  induction fs with
  | nil => rfl
  | cons f rest ih =>
    cases rest with
    | nil => simp [join, List.intercalate]
    | cons g gs =>
      rw [join, ih]
      simp [List.intercalate]

/-- A sentence that a line can carry has a body and fields without commas. -/
theorem sentenceOk_body {t : Talker} {f : List Str} (h : sentenceOk t f = true) :
    join f ≠ [] ∧ f ≠ [] ∧ f.all (lacks Chr.comma) = true := by
  simp only [sentenceOk, Bool.and_eq_true, decide_eq_true_eq, Bool.not_eq_true'] at h
  obtain ⟨⟨⟨⟨⟨h1, h2⟩, h3⟩, h4⟩, h5⟩, h6⟩ := h
  refine ⟨?_, ?_, h3⟩
  · intro e; rw [← join_length, e] at h2; simp at h2
  · rintro rfl; simp at h1

/-- The sentence checks of WellFormed. -/
theorem toInstr_wellFormed (p : Params) (t : Sentence) : t.toInstr.wellFormed p = sentenceOk t.talker t.fields := by
  obtain ⟨v, a, b⟩ := t
  cases v <;> rfl

/-- What a line that decodes has passed (R99 to R104). -/
theorem decodeSentence_ok {L : Str} {t : Sentence} (h : decodeSentence L = .ok t) :
    10 ≤ L.length ∧ byteAt L 0 = Chr.dollar ∧ checksumField L = some (xsum (checksumRegion L)) ∧
    verbOf (lineVerb L) = some t.verb ∧ t.talker = lineTalker L ∧ t.fields = split (lineBody L) := by
  unfold decodeSentence at h
  split at h
  · cases h
  rename_i h1
  split at h
  · cases h
  rename_i h2
  split at h
  · cases h
  rename_i h3
  split at h
  · cases h
  rename_i h4
  split at h
  · cases h
  rename_i h5
  injection h with h; subst h
  refine ⟨Nat.le_of_not_lt h1, by simpa using h2, ?_, h5, rfl, rfl⟩
  rw [h3, not_not.1 h4]

/-- A line is never rejected with FRAMING_OVERFLOW (R116). -/
theorem decodeSentence_error {L : Str} {c : RejectCode} (h : decodeSentence L = .error c) : c ≠ .framingOverflow := by
  unfold decodeSentence at h
  split_ifs at h
  · injection h with h; rw [← h]; decide
  · injection h with h; rw [← h]; decide
  · split at h
    · injection h with h; rw [← h]; decide
    · split_ifs at h
      · injection h with h; rw [← h]; decide
      · split at h
        · injection h with h; rw [← h]; decide
        · cases h

/-- A position the line has. -/
theorem byteAt_some {L : Str} {i : Nat} (h : i < L.length) : L[i]? = some (byteAt L i) := by
  rw [List.getElem?_eq_getElem h, byteAt, List.getD_eq_getElem _ _ h]

/-- A byte set elsewhere. -/
theorem byteAt_set {L : Str} {k i : Nat} {b : Byte} (h : i ≠ k) : byteAt (L.set k b) i = byteAt L i := by
  unfold byteAt
  rw [List.getD_eq_getElem?_getD, List.getD_eq_getElem?_getD, List.getElem?_set_ne (Ne.symm h)]

/-- When the suffix is no checksum (R102). -/
theorem checksumField_none {L : Str} (hl : 10 ≤ L.length) (h : L[L.length - 3]? ≠ some Chr.star ∨
    (L[L.length - 2]?).bind hexval = none ∨ (L[L.length - 1]?).bind hexval = none) : checksumField L = none := by
  rw [byteAt_some (by omega), byteAt_some (by omega), byteAt_some (by omega)] at h
  simp only [Option.bind_some, ne_eq, Option.some.injEq] at h
  unfold checksumField
  simp only
  rcases h with h | h | h
  · rw [if_neg h]
  · split_ifs
    · rw [h]
    · rfl
  · split_ifs
    · rw [h]; cases hexval (byteAt L (L.length - 2)) <;> rfl
    · rfl

/-- When it is one (R57, R102). -/
theorem checksumField_some {L : Str} {hi lo : Nat} (hl : 10 ≤ L.length) (h1 : L[L.length - 3]? = some Chr.star) (h2 :
    (L[L.length - 2]?).bind hexval = some hi) (h3 :
    (L[L.length - 1]?).bind hexval = some lo) : checksumField L = some (BitVec.ofNat 8 (hi * 16 + lo)) := by
  rw [byteAt_some (by omega)] at h1 h2 h3
  simp only [Option.bind_some, Option.some.injEq] at h1 h2 h3
  unfold checksumField
  simp only
  rw [if_pos h1, h2, h3]

/-- The checksum region by drop and take (R56). -/
theorem checksumRegion_eq (L : Str) : checksumRegion L = (L.drop 1).take (L.length - 4) := by
  unfold checksumRegion slice; congr 1

/-- The body by drop and take (R55). -/
theorem lineBody_eq (L : Str) : lineBody L = (L.drop 6).take (L.length - 9) := by
  unfold lineBody slice; congr 1

/-- Verb and talker by drop and take (R55). -/
theorem verb_talker_slices {L : Str} (h : 10 ≤ L.length) :
    (L.drop 3).take 3 = (lineVerb L).bytes ∧ (L.drop 1).take 2 = (lineTalker L).bytes := by
  match L, h with
  | a :: b :: c :: d :: e :: f :: rest, _ => exact ⟨rfl, rfl⟩

/-- A verb key names its three bytes (R64). -/
theorem verbKey_inj {v w : VerbBytes} (h : verbKey v = verbKey w) : v = w := by
  cases v with | mk a b c => cases w with | mk d e f =>
  simp only [verbKey] at h
  have := a.isLt; have := b.isLt; have := c.isLt; have := d.isLt; have := e.isLt; have := f.isLt
  have h1 : a.toNat = d.toNat := by omega
  have h2 : b.toNat = e.toNat := by omega
  have h3 : c.toNat = f.toNat := by omega
  rw [BitVec.eq_of_toNat_eq h1, BitVec.eq_of_toNat_eq h2, BitVec.eq_of_toNat_eq h3]

/-- A verb of the map has the bytes of its key (R64). -/
theorem verbOf_bytes {v : VerbBytes} {w : SentenceVerb} (h : verbOf v = some w) : v = verbBytesOfKey w.key := by
  unfold verbOf at h
  simp only at h
  split_ifs at h with h1 h2 h3 h4
  all_goals (injection h with h; subst h; apply verbKey_inj)
  · exact h1.trans (by decide)
  · exact h2.trans (by decide)
  · exact h3.trans (by decide)
  · exact h4.trans (by decide)

end Sys2Proof
end

