-- ==== Sys2Proof/Laws/Numbers.lean ====
section
/-! SUPPORT. Numbers: rounding, decimal text written and read. -/

namespace Sys2Proof
namespace Machine

/-- ROUND is the nearest integer (R75). -/
theorem roundQ_nearest (ties : RoundTies) (x : Rat) (hx : 0 ≤ x) : IsNearest ties x (roundQ ties x) := by
  cases ties with
  | halfUp =>
    have hf : x.floor = ⌊x⌋ := rfl
    have h0 : 0 ≤ ⌊x + 1/2⌋ := Int.floor_nonneg.2 (by linarith)
    have hc : ((roundQ .halfUp x : Nat) : Rat) = (⌊x + 1/2⌋ : Rat) := by
      show (((⌊x + 1/2⌋).toNat : Nat) : Rat) = _
      have : (((⌊x + 1/2⌋).toNat : Int) : Rat) = (⌊x + 1/2⌋ : Rat) := by rw [Int.toNat_of_nonneg h0]
      exact_mod_cast this
    have h1 := Int.floor_le (x + 1/2)
    have h2 := Int.lt_floor_add_one (x + 1/2)
    refine ⟨?_, ?_⟩
    · rw [hc, abs_le]; constructor <;> linarith
    · intro h
      simp only
      rw [hc] at h ⊢
      rcases abs_eq (by norm_num : (0:Rat) ≤ 1/2) |>.1 h with h | h <;> linarith
  | halfEven =>
    have h0 : 0 ≤ ⌊x⌋ := Int.floor_nonneg.2 hx
    have hc : (((⌊x⌋).toNat : Nat) : Rat) = (⌊x⌋ : Rat) := by
      have : (((⌊x⌋).toNat : Int) : Rat) = (⌊x⌋ : Rat) := by rw [Int.toNat_of_nonneg h0]
      exact_mod_cast this
    have hc1 : (((⌊x⌋ + 1).toNat : Nat) : Rat) = (⌊x⌋ : Rat) + 1 := by
      have : (((⌊x⌋ + 1).toNat : Int) : Rat) = ((⌊x⌋ + 1 : Int) : Rat) := by rw [Int.toNat_of_nonneg (by omega)]
      push_cast at this
      exact_mod_cast this
    have h1 := Int.floor_le x
    have h2 := Int.lt_floor_add_one x
    have hr :
      roundQ .halfEven x = if x - (⌊x⌋:Rat) < 1/2 then ⌊x⌋.toNat else if 1/2 < x - (⌊x⌋:Rat) then (⌊x⌋+1).toNat else
      if ⌊x⌋ % 2 = 0 then ⌊x⌋.toNat else (⌊x⌋+1).toNat := rfl
    rw [hr]
    split_ifs with c1 c2 c3
    · refine ⟨by rw [hc, abs_le]; constructor <;> linarith, ?_⟩
      intro h; rw [hc] at h
      rcases abs_eq (by norm_num : (0:Rat) ≤ 1/2) |>.1 h with h | h <;> linarith
    · refine ⟨by rw [hc1, abs_le]; constructor <;> linarith, ?_⟩
      intro h; rw [hc1] at h
      rcases abs_eq (by norm_num : (0:Rat) ≤ 1/2) |>.1 h with h | h <;> linarith
    · refine ⟨by rw [hc, abs_le]; constructor <;> linarith, ?_⟩
      intro h; show _ % 2 = 0; omega
    · refine ⟨by rw [hc1, abs_le]; constructor <;> linarith, ?_⟩
      intro h; show _ % 2 = 0; omega

/-- The mean as R74 writes it. -/
theorem directionMean_eq (s : State) : directionMean s = meanOfRing s := by
  unfold directionMean meanOfRing
  congr 1
  · rw [Fin.sum_univ_def]
    have : s.dr.toList = (List.finRange 10).map fun i => s.dr[i] := by
      apply List.ext_getElem <;> simp
    rw [this]
    push_cast
    simp
    rfl
  · simp [Config.ringSize]

/-- DEC is the library's decimal text (R86). -/
theorem decDigits_eq_toDigits (f k : Nat) (h : k ≤ f) :
    decDigits f k = (Nat.toDigits 10 k).map (fun c => BitVec.ofNat 8 c.toNat) := by
  have dig : ∀ d : Fin 10, digitByte d.val = BitVec.ofNat 8 (Nat.digitChar d.val).toNat := by decide
  induction f generalizing k with
  | zero =>
    have : k = 0 := by omega
    subst this; decide
  | succ f ih =>
    rw [decDigits, Nat.toDigits_eq_if (by norm_num)]
    split_ifs with hk
    · have := dig ⟨k, hk⟩
      simp at this ⊢; exact this
    · rw [ih (k/10) (by omega)]
      have := dig ⟨k % 10, Nat.mod_lt _ (by norm_num)⟩
      simp at this ⊢; exact this

/-- DIGIT(d) is a digit of value d. -/
theorem digitByte_spec (d : Nat) (h : d < 10) : isDigit (digitByte d) = true ∧ (digitByte d).toNat - 0x30 = d := by
  have : ∀ d : Fin 10, isDigit (digitByte d.val) = true ∧ (digitByte d.val).toNat - 0x30 = d.val := by decide
  exact this ⟨d, h⟩

/-- One digit more. -/
theorem digitsValue_append (a : Str) (d : Byte) : digitsValue (a ++ [d]) = digitsValue a * 10 + (d.toNat - 0x30) := by
  simp [digitsValue]

/-- DEC(k) is digits of value k (R86). -/
theorem decDigits_spec (f k : Nat) (h : k ≤ f) :
    (decDigits f k).all isDigit = true ∧ digitsValue (decDigits f k) = k ∧ decDigits f k ≠ [] := by
  induction f generalizing k with
  | zero =>
    have : k = 0 := by omega
    subst this; decide
  | succ f ih =>
    rw [decDigits]
    split_ifs with hk
    · obtain ⟨a, b⟩ := digitByte_spec k hk
      exact ⟨by simp [a], by simp [digitsValue, b], by simp⟩
    · obtain ⟨a, b, c⟩ := ih (k / 10) (by omega)
      obtain ⟨d, e⟩ := digitByte_spec (k % 10) (Nat.mod_lt _ (by norm_num))
      refine ⟨by rw [List.all_append, a]; simp [d], ?_, by simp⟩
      rw [digitsValue_append, b, e]; omega

/-- The two readings of a digit string agree. -/
theorem decimalValue_eq (ds : Str) : decimalValue ds = digitsValue ds := by
  induction ds using List.reverseRecOn with
  | nil => rfl
  | append_singleton a d ih =>
    rw [digitsValue_append, ← ih]
    simp [decimalValue, Nat.ofDigits_cons]
    ring

/-- The digits at the front of a text. -/
theorem takeWhile_digits {w : Str} (h : w.all isDigit = true) (r : Str) (hr : ∀ c ∈ r.head?, isDigit c = false) :
   (w ++ r).takeWhile isDigit = w ∧ (w ++ r).dropWhile isDigit = r := by
  induction w with
  | nil =>
    cases r with
    | nil => exact ⟨rfl, rfl⟩
    | cons c r => simp [hr c (by simp)]
  | cons b w ih =>
    rw [List.all_cons, Bool.and_eq_true] at h
    obtain ⟨h1, h2⟩ := ih h.2
    simp [h.1, h1, h2]

/-- `DIGITS` (R62). -/
theorem parseUnsigned_whole (neg : Bool) {w : Str} (h : w.all isDigit = true) (hne : w ≠ []) :
   parseUnsigned neg w = some ⟨neg, digitsValue w, 0, 0⟩ := by
  obtain ⟨h1, h2⟩ := takeWhile_digits h [] (by simp)
  rw [List.append_nil] at h1 h2
  unfold parseUnsigned
  rw [h1, h2]
  cases w with
  | nil => exact absurd rfl hne
  | cons => rfl

/-- `[DIGITS] "." [DIGITS]` (R62). -/
theorem parseUnsigned_dot (neg : Bool) {w f : Str} (h : w.all isDigit = true) (hf : f.all isDigit = true)
    (hne : ¬(w = [] ∧ f = [])) :
   parseUnsigned neg (w ++ Chr.dot :: f) = some ⟨neg, digitsValue w, digitsValue f, f.length⟩ := by
  obtain ⟨h1, h2⟩ := takeWhile_digits h (Chr.dot :: f) (by intro c hc; simp at hc; subst hc; decide)
  unfold parseUnsigned
  rw [h1, h2]
  simp only
  rw [if_pos]
  refine ⟨trivial, hf, ?_⟩
  simpa [List.isEmpty_iff] using hne

/-- Nothing else is read (R62). -/
theorem parseUnsigned_inv {neg : Bool} {b : Str} {n : NumText} (h : parseUnsigned neg b = some n) :
   ∃ w f, w.all isDigit = true ∧ f.all isDigit = true ∧
     ((w ≠ [] ∧ f = [] ∧ b = w) ∨ (¬(w = [] ∧ f = []) ∧ b = w ++ Chr.dot :: f)) ∧
     n = ⟨neg, digitsValue w, digitsValue f, f.length⟩ := by
  have hb := List.takeWhile_append_dropWhile (p := isDigit) (l := b)
  have ha : (b.takeWhile isDigit).all isDigit = true := by
    rw [List.all_eq_true]; intro x hx; exact List.mem_takeWhile_imp hx
  unfold parseUnsigned at h
  simp only at h
  split at h
  · rename_i hd
    split at h
    · cases h
    · rename_i hi
      injection h with h; subst h
      rw [hd, List.append_nil] at hb
      exact ⟨_, [], ha, rfl, .inl ⟨by simpa [List.isEmpty_iff] using hi, rfl, hb.symm⟩, rfl⟩
  · rename_i c f hd
    split at h
    · rename_i hc
      injection h with h; subst h
      obtain ⟨h1, h2, h3⟩ := hc
      rw [hd, h1] at hb
      exact ⟨_, f, ha, h2, .inr ⟨by simpa [List.isEmpty_iff] using h3, hb.symm⟩, rfl⟩
    · cases h

/-- What reads as a number is a text of NUM (R62). -/
theorem parseNum_text {f : Str} {n : NumText} (h : parseNum f = some n) :
    ∃ w fr, IsNumText f n.negative w fr ∧ n = ⟨n.negative, digitsValue w, digitsValue fr, fr.length⟩ := by
  unfold parseNum at h
  split at h
  · cases h
  · rename_i c rest
    split at h
    · rename_i hc
      obtain ⟨w, fr, h1, h2, h3, h4⟩ := parseUnsigned_inv h
      subst h4
      refine ⟨w, fr, ⟨h1, h2, ?_⟩, rfl⟩
      rcases h3 with ⟨a, b, e⟩ | ⟨a, e⟩
      · exact .inl ⟨a, b, by rw [hc, e]; rfl⟩
      · exact .inr ⟨a, by rw [hc, e]; rfl⟩
    · rename_i hc
      obtain ⟨w, fr, h1, h2, h3, h4⟩ := parseUnsigned_inv h
      subst h4
      refine ⟨w, fr, ⟨h1, h2, ?_⟩, rfl⟩
      rcases h3 with ⟨a, b, e⟩ | ⟨a, e⟩
      · exact .inl ⟨a, b, by rw [e]; rfl⟩
      · exact .inr ⟨a, by rw [e]; rfl⟩

/-- A text of NUM reads as its parts (R62). -/
theorem parseNum_of_text {f : Str} {neg : Bool} {w fr : Str} (h : IsNumText f neg w fr) :
    parseNum f = some ⟨neg, digitsValue w, digitsValue fr, fr.length⟩ := by
  obtain ⟨h1, h2, h3⟩ := h
  have hu : ∃ b, f = (if neg then [Chr.minus] else []) ++ b ∧ b ≠ [] ∧ b.head? ≠ some Chr.minus ∧ parseUnsigned neg b = some ⟨neg, digitsValue w, digitsValue fr, fr.length⟩ := by
    rcases h3 with ⟨a, b, e⟩ | ⟨a, e⟩
    · refine ⟨w, e, a, ?_, ?_⟩
      · cases w with
        | nil => exact absurd rfl a
        | cons x w => intro hx; simp at hx; subst hx; revert h1; simp [isDigit]
      · rw [parseUnsigned_whole neg h1 a, b]; rfl
    · refine ⟨w ++ Chr.dot :: fr, by rw [e, List.append_assoc], by simp, ?_, parseUnsigned_dot neg h1 h2 a⟩
      cases w with
      | nil => simp
      | cons x w => intro hx; simp at hx; subst hx; revert h1; simp [isDigit]
  obtain ⟨b, e1, e2, e3, e4⟩ := hu
  rw [e1]
  cases neg with
  | true => exact e4
  | false =>
    cases b with
    | nil => exact absurd rfl e2
    | cons x b =>
      show parseNum (x :: b) = _
      have hx : x ≠ Chr.minus := by rintro rfl; exact e3 rfl
      simp only [parseNum]
      rw [if_neg hx]
      exact e4

/-- A fraction is below 1. -/
theorem digitsValue_lt {ds : Str} (h : ds.all isDigit = true) : digitsValue ds < 10 ^ ds.length := by
  induction ds using List.reverseRecOn with
  | nil => decide
  | append_singleton a d ih =>
    rw [List.all_append, Bool.and_eq_true] at h
    have := ih h.1
    have hd : d.toNat - 0x30 < 10 := by
      have := h.2; simp [isDigit] at this; omega
    rw [digitsValue_append, List.length_append, List.length_singleton, pow_succ]; omega

/-- sign * I is the value truncated toward zero (R63). -/
theorem trunc_eq_floor_or_ceil (neg : Bool) (I F k : Nat) (h : F < 10 ^ k) :
   (NumText.mk neg I F k).trunc = if 0 ≤ (NumText.mk neg I F k).value then ⌊(NumText.mk neg I F k).value⌋ else
     ⌈(NumText.mk neg I F k).value⌉ := by
  have hk : (0:Rat) < ((10 ^ k : Nat) : Rat) := by positivity
  have hf0 : (0:Rat) ≤ (F:Rat) / ((10 ^ k : Nat) : Rat) := by positivity
  have hf1 : (F:Rat) / ((10 ^ k : Nat) : Rat) < 1 := by
    rw [div_lt_one hk]; exact_mod_cast h
  unfold NumText.trunc NumText.value NumText.sign
  simp only
  generalize (F:Rat) / ((10 ^ k : Nat) : Rat) = x at hf0 hf1
  have hI : (0:Rat) ≤ I := by positivity
  cases neg with
  | false =>
    simp only [Bool.false_eq_true, if_false, one_mul, Int.cast_one]
    rw [if_pos (by linarith)]
    symm; rw [Int.floor_eq_iff]; push_cast; constructor <;> linarith
  | true =>
    simp only [if_true]
    push_cast
    split_ifs with hc
    · have hz : (I:Rat) = 0 := by linarith
      have : I = 0 := by exact_mod_cast hz
      subst this
      symm; rw [Int.floor_eq_iff]; push_cast; constructor <;> linarith
    · symm; rw [Int.ceil_eq_iff]; push_cast; constructor <;> linarith

/-- FMT_T(t) reads back. -/
theorem parseNum_fmtTenths (t : Nat) : parseNum (fmtTenths t) = some ⟨false, t / 10, t % 10, 1⟩ := by
  obtain ⟨h1, h2, h3⟩ := decDigits_spec (t/10) (t/10) (le_refl _)
  obtain ⟨h4, h5⟩ := digitByte_spec (t % 10) (Nat.mod_lt _ (by norm_num))
  have := parseNum_of_text (f := fmtTenths t) (neg := false) (w := dec (t/10)) (fr := [digitByte (t % 10)])
    ⟨h1, by simp [h4], .inr ⟨by simp, rfl⟩⟩
  rw [this, dec, h2]
  simp [digitsValue, h5]

/-- And is t tenths. -/
theorem tenths_value (t : Nat) : (NumText.mk false (t/10) (t%10) 1).value = (t:Rat)/10 := by
  have h : (t : Rat) = ((t / 10 : Nat) : Rat) * 10 + ((t % 10 : Nat) : Rat) := by
    have : t = t / 10 * 10 + t % 10 := by omega
    exact_mod_cast this
  simp only [NumText.value, NumText.sign, Bool.false_eq_true, if_false]
  push_cast at *
  rw [h]
  field_simp

end Machine
end Sys2Proof
end

