-- ==== Sys2Proof/Laws/PerInstr.lean ====
section
/-! SUPPORT. Families of statements about every instruction as syntax, one lemma per constructor. -/

namespace Sys2Proof
namespace Laws
namespace TableKey

/-- The mnemonic's row in spec/opcode_table.json: the bits an instruction of it carries, and how many. -/
def row : Instr → Nat × Nat
  | .reset => (8, 0x00)
  | .rxByte _ => (8, 0x01)
  | .pulse _ => (8, 0x02)
  | .tick _ => (8, 0x03)
  | .setCorr _ => (8, 0x04)
  | .getCorr => (8, 0x05)
  | .encode _ _ _ => (8, 0x06)
  | .emitMwv _ _ => (8, 0x07)
  | .emitHdm _ => (8, 0x08)
  | .mwv _ _ => (24, 0x4D5756)
  | .vtg _ _ => (24, 0x565447)
  | .dpt _ _ => (24, 0x445054)
  | .hdm _ _ => (24, 0x48444D)

/-- The key an encoded instruction carries: a transaction's selector, a line's bytes 3 to 5. -/
def keyOf : Encoded → Nat × Nat
  | .txn t => (8, t.op.toNat)
  | .line L => (24, verbKey (lineVerb L))

/-- An instruction is encoded with its table row's key, whatever its operands. -/
def Statement (i : Instr) : Prop := keyOf (Sys2Proof.encode i) = row i

/-- A sentence's line carries its verb. -/
theorem key_of_sentence (t : Sentence) : keyOf (.line (encodeSentence t)) = (24, t.verb.key) := by
  have h : lineVerb (encodeSentence t) = verbBytesOfKey t.verb.key := by
    simp [encodeSentence, wrapLine, lineVerb, byteAt, Talker.bytes, VerbBytes.bytes]
  rw [keyOf, h]
  cases t.verb <;> decide

theorem reset : Statement .reset := rfl
theorem rxByte (b : Byte) : Statement (.rxByte b) := rfl
theorem pulse (ts : Nat) : Statement (.pulse ts) := rfl
theorem tick (code : Nat) : Statement (.tick code) := rfl
theorem setCorr (n : BitVec 16) : Statement (.setCorr n) := rfl
theorem getCorr : Statement .getCorr := rfl
theorem encode (talker : Talker) (verb : VerbBytes) (fields : List Str) : Statement (.encode talker verb fields) := rfl
theorem emitMwv (headingTenths : BitVec 16) (speed : Rat) : Statement (.emitMwv headingTenths speed) := rfl
theorem emitHdm (headingTenths : BitVec 16) : Statement (.emitHdm headingTenths) := rfl
theorem mwv (talker : Talker) (fields : List Str) : Statement (.mwv talker fields) := key_of_sentence ⟨.mwv, talker, fields⟩
theorem vtg (talker : Talker) (fields : List Str) : Statement (.vtg talker fields) := key_of_sentence ⟨.vtg, talker, fields⟩
theorem dpt (talker : Talker) (fields : List Str) : Statement (.dpt talker fields) := key_of_sentence ⟨.dpt, talker, fields⟩
theorem hdm (talker : Talker) (fields : List Str) : Statement (.hdm talker fields) := key_of_sentence ⟨.hdm, talker, fields⟩

end TableKey
end Laws
end Sys2Proof
end

