-- ==== Sys2Proof/Laws/Runs.lean ====
section
/-! SUPPORT. What no instruction writes, what a byte, a line or a sentence can give, and runs of them. -/

namespace Sys2Proof
namespace Machine

/-- No instruction writes the model's own fields. -/
theorem after_own (i : Instr) (s : State) :
    (after i s).pulseQ = s.pulseQ ∧ (after i s).timerQ = s.timerQ ∧ (after i s).serialQ = s.serialQ ∧
    (after i s).hostQ = s.hostQ ∧ (after i s).schedule = s.schedule ∧ (after i s).cfg = s.cfg := by
  cases i <;> simp [after]

/-- No instruction writes a queue. -/
theorem after_pending (i : Instr) (s : State) (src : Source) : pending src (after i s) = pending src s := by
  obtain ⟨h1, h2, h3, h4, -, -⟩ := after_own i s
  cases src <;> assumption

/-- Nor does an event. -/
theorem emit_pending (e : Event) (s : State) (src : Source) :
    pending src (emit e s) = pending src s := by cases src <;> rfl

/-- Nor does a transaction. -/
theorem execTxn_own {x : Txn} {s t : State} (h : execTxn x s = .next t) :
    (∀ src, pending src t = pending src s) ∧ t.schedule = s.schedule ∧ t.cfg = s.cfg := by
  obtain ⟨i, -, rfl⟩ | ⟨op, -, rfl⟩ := execTxn_next h
  · exact ⟨after_pending i s, (after_own i s).2.2.2.2⟩
  · exact ⟨emit_pending _ s, rfl, rfl⟩

/-- Host.Core.run, unfolded once. -/
theorem run_succ0 (M : Host.Core) (k : Nat) (u : M.State) :
    M.run (k+1) u = (match M.step u with | .next s' => M.run k s' | .fault r => .fault r | .refused r => .refused r) := rfl

/-- One step more of a run. -/
theorem run_core_succ (k : Nat) (u : State) :
    Host.Core.run Sys2Proof.core (k+1) u =
    (match step u with | .next s' => Host.Core.run Sys2Proof.core k s' | .fault r => .fault r | .refused r => .refused r) := by
  refine (run_succ0 Sys2Proof.core k u).trans ?_
  have h : Sys2Proof.core.step u = step u := rfl
  generalize step u = o at h
  rw [h]
  cases o with
  | next s => rfl
  | fault r => cases r
  | refused r => rfl

/-- RX_BYTE as it is issued decodes to itself. -/
theorem execTxn_rxByte (b : Byte) (s : State) : execTxn (rxByteTxn b) s = exec (.rxByte b) s := by
  have : decodeTxn s.cfg (rxByteTxn b) = .ok (.rxByte b) := by
    have h : fitsBits 8 b.toNat = true := (fitsBits_iff _ _).2 b.isLt
    simp [rxByteTxn, decodeTxn, selectorOf, decodeOperands, h]
  rw [execTxn_ok this, exec_eq_after]

/-- The first byte of a chunk. -/
theorem runTxns_rxChunk_cons (b : Byte) (c : Str) (s : State) :
    runTxns (rxChunk (b :: c)) s = runTxns (rxChunk c) (after (.rxByte b) s) := by
  show runTxns (rxByteTxn b :: rxChunk c) s = _
  rw [runTxns, execTxn_rxByte, exec_eq_after]

/-- Chunks join (R52, R97). -/
theorem rxChunk_append (a b : Str) : rxChunk (a ++ b) = rxChunk a ++ rxChunk b := by simp [rxChunk]

/-- The LF alone. -/
theorem runTxns_lf (s : State) :
    runTxns (rxChunk [Chr.lf]) s = .next { s with fb := [], out := s.out ++ [lineEvent (completedLine s.fb)] } := by
  rw [runTxns_rxChunk_cons]; rfl

/-- What a VTG course can be (R108). -/
theorem courseField_cases (f : List Str) (i : Nat) :
    courseField f i = .error .malformedNumeric ∨ courseField f i = .error .outOfRange ∨ ∃ q :
    Rat, courseField f i = .ok q ∧ 0 ≤ q ∧ q ≤ 360 := by
  unfold courseField
  split
  · exact .inl rfl
  · rename_i n hn
    split_ifs with h
    · exact .inr (.inl rfl)
    · refine .inr (.inr ⟨_, rfl, ?_, ?_⟩)
      · by_contra hc; exact h (.inl (not_le.1 hc))
      · by_contra hc; exact h (.inr (not_le.1 hc))

/-- A sentence gives a legal event of its own, or a rejection that is no overflow. -/
theorem applyVerb_cases (v : SentenceVerb) (t : Talker) (f : List Str) :
    (∃ e, applyVerb v t f = .ok e ∧ e.isDispatch = true ∧ e.legal = true) ∨ ∃ c, applyVerb v t f = .error c ∧
    c ≠ .framingOverflow := by
  cases v with
  | mwv =>
    unfold applyVerb parseMwv
    simp only
    split_ifs
    · exact .inr ⟨_, rfl, by decide⟩
    split
    · exact .inr ⟨_, rfl, by decide⟩
    split
    · exact .inr ⟨_, rfl, by decide⟩
    split
    · exact .inr ⟨_, rfl, by decide⟩
    exact .inl ⟨_, rfl, rfl, rfl⟩
  | vtg =>
    unfold applyVerb parseVtg
    simp only
    split_ifs
    · exact .inr ⟨_, rfl, by decide⟩
    rcases courseField_cases f 1 with h | h | ⟨q, h, hq⟩
    · rw [h]; exact .inr ⟨_, rfl, by decide⟩
    · rw [h]; exact .inr ⟨_, rfl, by decide⟩
    rw [h]; simp only
    rcases courseField_cases f 3 with h | h | ⟨r, h, hr⟩
    · rw [h]; exact .inr ⟨_, rfl, by decide⟩
    · rw [h]; exact .inr ⟨_, rfl, by decide⟩
    rw [h]; simp only
    split
    · exact .inr ⟨_, rfl, by decide⟩
    · exact .inl ⟨_, rfl, rfl, by simp [Event.legal, hq, hr]⟩
  | dpt =>
    unfold applyVerb parseDpt
    simp only
    split_ifs
    · exact .inr ⟨_, rfl, by decide⟩
    split
    · exact .inr ⟨_, rfl, by decide⟩
    exact .inl ⟨_, rfl, rfl, by simp [Event.legal]⟩
  | hdm => exact .inr ⟨_, rfl, by decide⟩

/-- So does a line (R110). -/
theorem lineEvent_cases (L : Str) :
    ((lineEvent L).isDispatch = true ∧ (lineEvent L).legal = true) ∨ ∃ c, lineEvent L = .reject c ∧
    c ≠ .framingOverflow := by
  unfold lineEvent lineVerdict
  cases h : decodeSentence L with
  | error c => exact .inr ⟨c, rfl, decodeSentence_error h⟩
  | ok t =>
    simp only
    rcases applyVerb_cases t.verb t.talker t.fields with ⟨e, h1, h2, h3⟩ | ⟨c, h1, h2⟩
    · rw [h1]; exact .inl ⟨h2, h3⟩
    · rw [h1]; exact .inr ⟨c, rfl, h2⟩

/-- A line that fails a check. -/
theorem processLine_err {L : Str} {c : RejectCode} (h : decodeSentence L = .error c) (s : State) :
    processLine L s = rejected c s := by
  unfold processLine; rw [h]; rfl

/-- Its event. -/
theorem lineEvent_err {L : Str} {c : RejectCode} (h : decodeSentence L = .error c) : lineEvent L = .reject c := by
  unfold lineEvent lineVerdict; rw [h]; rfl

/-- A transaction that can be written down answers a next state (R49, R50). -/
theorem execTxn_legal {x : Txn} {s : State} (h : x.legal s.cfg = true) : ∃ t, execTxn x s = .next t := by
  unfold Txn.legal at h
  cases hd : decodeTxn s.cfg x with
  | ok i => exact ⟨_, execTxn_ok hd⟩
  | error e =>
    cases e with
    | reserved op => exact ⟨_, execTxn_reserved hd⟩
    | operands op => rw [hd] at h; cases h

/-- The last transaction of a run. -/
theorem runTxns_snoc {l : List Txn} {x : Txn} {s t : State} (h : runTxns (l ++ [x]) s = .next t) :
    ∃ u, runTxns l s = .next u ∧ execTxn x u = .next t := by
  rw [runTxns_append] at h
  cases hl : runTxns l s with
  | next u =>
    rw [hl] at h
    refine ⟨u, rfl, ?_⟩
    simp only [runTxns] at h
    cases he : execTxn x u with
    | next v => rw [he] at h; exact h
    | fault r => cases r
    | refused r => rw [he] at h; cases h
  | fault r => cases r
  | refused r => rw [hl] at h; cases h

/-- What the ASSEMBLER writes begins with `$` and ends with CR LF (R54). -/
theorem encodeOut_legal (talker : Talker) (verb : VerbBytes) (fields : List Str) :
    (Event.tx (encodeOut talker verb fields)).legal = true := by
  have hl : (encodeOut talker verb fields).length - 2 =
      (wrapLine (talker.bytes ++ verb.bytes ++ Chr.comma :: join fields)).length := by
    rw [encodeOut, List.length_append]; rfl
  rw [Event.legal, Bool.and_eq_true]
  refine ⟨by simp [encodeOut, wrapLine], ?_⟩
  rw [hl, encodeOut, List.drop_left]; rfl

end Machine
end Sys2Proof
end

