-- ==== Sys2Proof/Machine/AsmText.lean ====
section
/-! DEFINITION. The assembly text of a transaction (30_encoding.md R51): its mnemonic and its operands in the order of R48. -/

namespace Sys2Proof
namespace Machine

/-- An upper-case hex digit of the assembly text. -/
def asmHexDigit (d : Nat) : Char := if d < 10 then Char.ofNat (0x30 + d) else Char.ofNat (0x41 + d - 10)

/-- Two hex digits of a byte. -/
def asmHex (b : Byte) : List Char := [asmHexDigit (b.toNat / 16), asmHexDigit (b.toNat % 16)]

/-- A byte as a hex operand, `0x2A`. -/
def asmByte (b : Byte) : List Char := '0' :: 'x' :: asmHex b

/-- One byte of a quoted string, with C escapes. -/
def asmStringByte (b : Byte) : List Char :=
  if b = Chr.cr then ['\\', 'r']
  else if b = Chr.lf then ['\\', 'n']
  else if b = 0x22 then ['\\', '"']
  else if b = 0x5C then ['\\', '\\']
  else if 0x20 ≤ b.toNat ∧ b.toNat ≤ 0x7E then [Char.ofNat b.toNat]
  else '\\' :: 'x' :: asmHex b

/-- A string in double quotes. -/
def asmString (s : Str) : List Char := '"' :: (s.flatMap asmStringByte ++ ['"'])

/-- Operands with a comma and a space between each two. -/
def asmCommas : List (List Char) → List Char
  | [] => []
  | [x] => x
  | x :: y :: rest => x ++ ',' :: ' ' :: asmCommas (y :: rest)

/-- A field list in square brackets. -/
def asmStrings (l : List Str) : List Char := '[' :: (asmCommas (l.map asmString) ++ [']'])

/-- A natural in decimal; `fuel` more digits at most. -/
def asmNatDigits : Nat → Nat → List Char
  | 0, k => [Char.ofNat (0x30 + k % 10)]
  | fuel + 1, k => if k < 10 then [Char.ofNat (0x30 + k)] else asmNatDigits fuel (k / 10) ++ [Char.ofNat (0x30 + k % 10)]

/-- A natural in decimal. -/
def asmNat (k : Nat) : List Char := asmNatDigits k k

/-- An integer in decimal, `-` before a negative one. -/
def asmInt (n : Int) : List Char := if n < 0 then '-' :: asmNat n.natAbs else asmNat n.natAbs

/-- A rational as a fraction, a whole one as a number. -/
def asmRat (q : Rat) : List Char := if q.den = 1 then asmInt q.num else asmInt q.num ++ '/' :: asmNat q.den

/-- The mnemonic and its operands. -/
def asmLine (mnemonic : String) (operands : List (List Char)) : List Char :=
  match operands with
  | [] => mnemonic.toList
  | _ :: _ => mnemonic.toList ++ ' ' :: asmCommas operands

/-- The assembly text of a transaction; a received sentence is no transaction and has none (R51). -/
def asmText : Instr → Option (List Char)
  | .reset => some (asmLine "RESET" [])
  | .rxByte b => some (asmLine "RX_BYTE" [asmByte b])
  | .pulse ts => some (asmLine "PULSE" [asmNat ts])
  | .tick code => some (asmLine "TICK" [asmNat code])
  | .setCorr n => some (asmLine "SET_CORR" [asmInt n.toInt])
  | .getCorr => some (asmLine "GET_CORR" [])
  | .encode talker verb fields => some (asmLine "ENCODE" [asmString talker.bytes, asmString verb.bytes, asmStrings fields])
  | .emitMwv t q => some (asmLine "EMIT_MWV" [asmNat t.toNat, asmRat q])
  | .emitHdm t => some (asmLine "EMIT_HDM" [asmNat t.toNat])
  | .mwv _ _ => none
  | .vtg _ _ => none
  | .dpt _ _ => none
  | .hdm _ _ => none

end Machine
end Sys2Proof
end

