-- ==== Sys2Proof/Tests/Slice0.lean ====
section
/-! SUPPORT. Tests. Expected results are those of spec/95_test_vectors.md (named at each test) or counted by hand from the
rule named. After them, for every statement with hypotheses, witnesses that meet the hypotheses. -/

namespace Sys2Proof
namespace Tests

open Machine

set_option Elab.async false

/-- The parameter values that spec/95_test_vectors.md gives its examples. -/
def params : Params where
  ticksPerSecond := 1000
  tsBits := 32
  adcBits := 10
  roundTies := .halfUp
  autoEmitMwv := true

/-- The state after RESET of a block built with them. -/
def start : State := { State.reset with cfg := params }

/-- The events that a transaction or an instruction emits from a state with OUT empty; none where it stops. -/
def events : Host.Outcome State Fault Refusal → Option (List Event)
  | .next t => some t.out
  | .fault _ => none
  | .refused _ => none

/-- The outcome is a next state. -/
def completes : Host.Outcome State Fault Refusal → Bool
  | .next _ => true
  | .fault _ => false
  | .refused _ => false

/-- The next state, or the start state. -/
def result : Host.Outcome State Fault Refusal → State
  | .next t => t
  | .fault _ => start
  | .refused _ => start

/-- Talker "II". -/
def ii : Talker := ⟨0x49, 0x49⟩

/-- The event of one received line, given as the FB at its LF. -/
def lineGives (fb : String) (ev : Event) : Prop :=
  events (exec (.rxByte Chr.lf) { start with fb := ascii fb }) = some [ev]

/-! ### WellFormed refuses -/

theorem test_pulse_too_wide : Instr.wellFormed params (.pulse (2 ^ 32)) = false := by decide
theorem test_tick_too_wide : Instr.wellFormed params (.tick 1024) = false := by decide
theorem test_negative_speed : Instr.wellFormed params (.emitMwv 0 (-1 / 10)) = false := by decide +kernel
theorem test_no_fields : Instr.wellFormed params (.mwv ii []) = false := by decide
theorem test_empty_body : Instr.wellFormed params (.vtg ii [[]]) = false := by decide
theorem test_comma_in_field : Instr.wellFormed params (.dpt ii [[], [Chr.comma]]) = false := by decide
theorem test_lf_in_field : Instr.wellFormed params (.hdm ii [[], [Chr.lf]]) = false := by decide
theorem test_lf_in_talker : Instr.wellFormed params (.dpt ⟨0x49, Chr.lf⟩ [[], [0x33]]) = false := by decide
theorem test_too_long : Instr.wellFormed params (.dpt ii [List.replicate 1016 0x30]) = false := by decide +kernel
theorem test_longest : Instr.wellFormed params (.dpt ii [List.replicate 1015 0x30]) = true := by decide +kernel

/-! ### Decoding: one word of every constructor, from the maps of 30_encoding.md R48 and R64 -/

theorem test_decode_reset : decode params (.txn ⟨0x00, []⟩) = .ok .reset := by decide
theorem test_decode_rxByte : decode params (.txn ⟨0x01, [.nat 0x2A]⟩) = .ok (.rxByte 0x2A) := by decide
theorem test_decode_pulse : decode params (.txn ⟨0x02, [.nat 10000]⟩) = .ok (.pulse 10000) := by decide
theorem test_decode_tick : decode params (.txn ⟨0x03, [.nat 512]⟩) = .ok (.tick 512) := by decide
/-- -10 is 0xFFF6 in 16 bits. -/
theorem test_decode_setCorr : decode params (.txn ⟨0x04, [.int (-10)]⟩) = .ok (.setCorr 0xFFF6) := by decide
theorem test_decode_getCorr : decode params (.txn ⟨0x05, []⟩) = .ok .getCorr := by decide
theorem test_decode_encode :
    decode params (.txn ⟨0x06, [.str (ascii "II"), .str (ascii "DPT"), .strs [ascii "3"]]⟩) =
      .ok (.encode ii ⟨0x44, 0x50, 0x54⟩ [[0x33]]) := by decide +kernel
theorem test_decode_emitMwv :
    decode params (.txn ⟨0x07, [.nat 1800, .rat (1955196 / 1000000)]⟩) = .ok (.emitMwv 1800 (1955196 / 1000000)) := by
  decide +kernel
theorem test_decode_emitHdm : decode params (.txn ⟨0x08, [.nat 1234]⟩) = .ok (.emitHdm 1234) := by decide
/-- The bytes of `$IIMWV,*60` (V-A2): 24 49 49 4D 57 56 2C 2A 36 30. -/
theorem test_decode_mwv :
    decode params (.line [0x24, 0x49, 0x49, 0x4D, 0x57, 0x56, 0x2C, 0x2A, 0x36, 0x30]) = .ok (.mwv ii [[], []]) := by
  decide +kernel
/-- V-T7 -/
theorem test_decode_vtg :
    decode params (.line (ascii "$IIVTG,1,T,2,M,3*40")) = .ok (.vtg ii [[], [0x31], [0x54], [0x32], [0x4D], [0x33]]) := by
  decide +kernel
/-- The bytes of `$IIDPT,3*5f`. -/
theorem test_decode_dpt :
    decode params (.line [0x24, 0x49, 0x49, 0x44, 0x50, 0x54, 0x2C, 0x33, 0x2A, 0x35, 0x66]) = .ok (.dpt ii [[], [0x33]]) := by
  decide +kernel
/-- V-V8 -/
theorem test_decode_hdm :
    decode params (.line (ascii "$IIHDM,123.4,M*26")) = .ok (.hdm ii [[], ascii "123.4", [0x4D]]) := by decide +kernel
theorem test_decode_operand_missing : decode params (.txn ⟨0x02, []⟩) = .error (.txn (.operands 0x02)) := by decide
theorem test_decode_s16_too_low : decode params (.txn ⟨0x04, [.int (-32769)]⟩) = .error (.txn (.operands 0x04)) := by decide
theorem test_decode_reserved : decode params (.txn ⟨0xFF, [.nat 3]⟩) = .error (.txn (.reserved 0xFF)) := by decide

/-- Every row of spec/opcode_table.json: its word decodes, with the block's own open parameters. -/
theorem test_table_words :
    [decodeTableWord 8 0, decodeTableWord 8 1, decodeTableWord 8 2, decodeTableWord 8 3, decodeTableWord 8 4,
      decodeTableWord 8 5, decodeTableWord 8 6, decodeTableWord 8 7, decodeTableWord 8 8] =
    [some .reset, some (.rxByte 0), some (.pulse 0), some (.tick 0), some (.setCorr 0), some .getCorr,
      some (.encode ⟨0, 0⟩ ⟨0, 0, 0⟩ []), some (.emitMwv 0 0), some (.emitHdm 0)] := by decide +kernel
theorem test_table_sentences :
    [decodeTableWord 24 0x4D5756, decodeTableWord 24 0x565447, decodeTableWord 24 0x445054, decodeTableWord 24 0x48444D] =
    [some (.mwv ⟨0, 0⟩ [[], []]), some (.vtg ⟨0, 0⟩ [[], []]), some (.dpt ⟨0, 0⟩ [[], []]), some (.hdm ⟨0, 0⟩ [[], []])] := by
  decide +kernel
/-- Each runs as the first instruction after reset. -/
theorem test_table_words_run :
    ([0, 1, 2, 3, 4, 5, 6, 7, 8].all fun w => completes (step (State.reset.withFetchWord 8 w))) = true := by decide +kernel
/-- MWV, VTG and DPT with an empty body have too few fields or no number; HDM is dropped (R107 to R109, R105). -/
theorem test_table_sentences_run :
    ([0x4D5756, 0x565447, 0x445054, 0x48444D].map fun w => events (step (State.reset.withFetchWord 24 w))) =
    [some [.reject .fieldCount], some [.reject .fieldCount], some [.reject .malformedNumeric],
      some [.reject .unknownVerb]] := by decide +kernel

/-! ### RESET, reserved selectors -/

/-- V-R3 -/
theorem test_reset :
    (result (exec .reset { start with fb := ascii "$IIDPT,", corr := 20, pr := start.pr.set 0 5, pi := 1, di := 1 })).block =
      start.block := by decide +kernel
/-- V-R1 -/
theorem test_reserved : execTxn ⟨0x09, []⟩ start = .next { start with out := [.refused 0x09] } := rfl
theorem test_operand_type : execTxn ⟨0x08, [.str []]⟩ start = .refused (.operandsNotOfType 0x08) := rfl

/-! ### PULSE, TICK, SET_CORR, GET_CORR -/

theorem test_pulse_slot : (result (exec (.pulse 7) { start with pi := 3 })).pr.toList = [0, 0, 0, 7, 0, 0, 0, 0, 0, 0] := by
  decide +kernel
theorem test_pulse_index_wraps : (result (exec (.pulse 7) { start with pi := 9 })).pi = 0 := by decide
/-- W6: 57 ten times with CORR = 350. -/
theorem test_tick_report :
    events (exec (.tick 57) { start with dr := Vector.replicate 10 57, di := 9, corr := 350 }) =
      some [.reading 100 0, .tx (ascii "$IIMWV,10.0,R,0.0,N,A*0c\r\n")] := by decide +kernel
/-- V-P5: 12 pulses; V-S3's tie rule is the next test. -/
theorem test_tick_speed :
    events (exec (.tick 512) { start with
      dr := Vector.replicate 10 512, di := 9, pi := 2,
      pr := #v[11000, 12000, 3000, 4000, 5000, 6000, 7000, 8000, 9000, 10000] }) =
      some [.reading 1800 (1955196 / 1000000), .tx (ascii "$IIMWV,180.0,R,2.0,N,A*36\r\n")] := by decide +kernel
/-- V-S3 under HALF_EVEN. -/
theorem test_tick_half_even :
    events (exec (.tick 0) { start with
      dr := #v[64, 0, 0, 0, 0, 0, 0, 0, 0, 0], di := 9, cfg := { params with roundTies := .halfEven } }) =
      some [.reading 22 0, .tx (ascii "$IIMWV,2.2,R,0.0,N,A*3d\r\n")] := by decide +kernel
/-- V-P6: the timestamp counter wraps. -/
theorem test_speed_wrap :
    reportSpeed { start with
      pr := #v[60000, 61000, 62000, 63000, 64000, 65000, 464, 1464, 2464, 3464], cfg := { params with tsBits := 16 } } =
      1955196 / 1000000 := by decide +kernel
/-- V-C1 -/
theorem test_setCorr : (result (exec (.setCorr 725) start)).corr = 5 := by decide
/-- V-C5: -32768 is 0x8000. -/
theorem test_setCorr_lowest : (result (exec (.setCorr 0x8000) start)).corr = 352 := by decide
/-- V-C4's GET_CORR. -/
theorem test_getCorr : events (exec .getCorr { start with corr := 350 }) = some [.corrVal 350] := by decide

/-! ### ENCODE, EMIT_MWV, EMIT_HDM -/

/-- V-A4: a checksum below 0x10. -/
theorem test_encode :
    events (exec (.encode ii ⟨0x4D, 0x57, 0x56⟩ [ascii "10.0", ascii "R", ascii "2.0", ascii "N", ascii "A"]) start) =
      some [.tx (ascii "$IIMWV,10.0,R,2.0,N,A*0e\r\n")] := by decide +kernel
/-- V-A3: an empty list. -/
theorem test_encode_empty :
    events (exec (.encode ii ⟨0x44, 0x50, 0x54⟩ []) start) = some [.tx (ascii "$IIDPT,*6c\r\n")] := by decide +kernel
/-- V-A9: the tenths carry. -/
theorem test_emitMwv_carry :
    events (exec (.emitMwv 0 (9996 / 100)) start) = some [.tx (ascii "$IIMWV,0.0,R,100.0,N,A*3c\r\n")] := by decide +kernel
/-- V-A10 under HALF_EVEN. -/
theorem test_emitMwv_tie :
    events (exec (.emitMwv 0 (5 / 100)) { start with cfg := { params with roundTies := .halfEven } }) =
      some [.tx (ascii "$IIMWV,0.0,R,0.0,N,A*3d\r\n")] := by decide +kernel
/-- W16 -/
theorem test_emitHdm : events (exec (.emitHdm 1234) start) = some [.tx (ascii "$IIHDM,123.4,M*26\r\n")] := by decide +kernel

/-! ### RX_BYTE -/

/-- V-F8 and one byte more: the oldest is discarded. -/
theorem test_rxByte_overflow :
    let t := result (exec (.rxByte 0x42) { start with fb := 0x24 :: List.replicate 1023 0x41 })
    t.fb = List.replicate 1023 0x41 ++ [0x42] ∧ t.out = [.reject .framingOverflow] := by decide +kernel
/-- V-F3: one CR is stripped. -/
theorem test_rxByte_two_cr : lineGives "$IIDPT,3*5f\r\r" (.reject .badSuffix) := by unfold lineGives; decide +kernel
/-- V-V1, V-V2, V-V4, V-V5, V-V7 -/
theorem test_checks_in_order :
    lineGives "$IIMWV*4c" (.reject .badLength) ∧ lineGives "!IIMWV,90.0,R,10.0,N,A*35" (.reject .badPrefix) ∧
    lineGives "$IIMWV,90.0,R,10.0,N,A35" (.reject .badSuffix) ∧
    lineGives "$IIMWV,90.0,R,10.0,N,A*36" (.reject .checksumMismatch) ∧
    lineGives "$IIXDR,C,20.5,C,AIRT*59" (.reject .unknownVerb) := by unfold lineGives; decide +kernel

/-! ### MWV, VTG, DPT, HDM, each as the line of a received sentence -/

/-- W1 -/
theorem test_mwv_mph : lineGives "$IIMWV,90.0,R,10.0,M,A*36\r" (.wind ii 90 (868976242 / 100000000)) := by
  unfold lineGives; decide +kernel
/-- V-M10 -/
theorem test_mwv_unchecked : lineGives "$IIMWV,400,T,-5,N,V*00" (.wind ii 400 (-5)) := by unfold lineGives; decide +kernel
/-- V-T2 -/
theorem test_vtg_360 : lineGives "$IIVTG,360.0,T,360.0,M,0,N*22" (.cogsog ii 360 360 0) := by unfold lineGives; decide +kernel
/-- V-T4 -/
theorem test_vtg_above : lineGives "$IIVTG,10,T,360.1,M,1,N*08" (.reject .outOfRange) := by unfold lineGives; decide +kernel
/-- V-D11 -/
theorem test_dpt_negative : lineGives "$IIDPT,-.25*68" (.depth ii (-1 / 4) 0) := by unfold lineGives; decide +kernel
/-- V-D10 -/
theorem test_dpt_dot : lineGives "$IIDPT,.*42" (.reject .malformedNumeric) := by unfold lineGives; decide +kernel
/-- V-V8 -/
theorem test_hdm : lineGives "$IIHDM,123.4,M*26" (.reject .unknownVerb) := by unfold lineGives; decide +kernel

/-! ### Texts and codes -/

/-- The examples of 30_encoding.md R51. -/
theorem test_asmText :
    (asmText (.rxByte 0x2A)).map String.ofList = some "RX_BYTE 0x2A" ∧
    (asmText (.setCorr 0xFFF6)).map String.ofList = some "SET_CORR -10" ∧
    (asmText (.encode ii ⟨0x48, 0x44, 0x4D⟩ [ascii "123.4", ascii "M"])).map String.ofList =
      some "ENCODE \"II\", \"HDM\", [\"123.4\", \"M\"]" := by decide +kernel
/-- 60_exceptions.md R112. -/
theorem test_rejectNumber :
    rejectNumber .framingOverflow = 1 ∧ rejectNumber .badLength = 2 ∧ rejectNumber .badPrefix = 3 ∧
    rejectNumber .badSuffix = 4 ∧ rejectNumber .checksumMismatch = 5 ∧ rejectNumber .unknownVerb = 6 ∧
    rejectNumber .fieldCount = 7 ∧ rejectNumber .malformedNumeric = 8 ∧ rejectNumber .outOfRange = 9 ∧
    rejectNumber .badUnit = 10 := by decide

/-! ### Witnesses: concrete inputs that meet a statement's hypotheses -/

theorem witness_PowerOnIsTheStateResetGives : exec .reset start = .next start := rfl

theorem witness_ReservedSelectorChangesNothingAndEmitsRefused :
    9 ≤ (0x09 : Byte).toNat ∧ 9 ≤ (0xFF : Byte).toNat := by decide

theorem witness_SelectorMapDecodesEveryOperand :
    2 ^ 32 - 1 < 2 ^ params.tsBits ∧ 1023 < 2 ^ params.adcBits ∧ (0 : Rat) ≤ 0 ∧ 9 ≤ (0x09 : Byte).toNat := by decide +kernel

theorem witness_DecodeOfEncodeIsTheInstruction :
    Instr.wellFormed params (.pulse (2 ^ 32 - 1)) = true ∧ Instr.wellFormed params (.tick 1023) = true ∧
    Instr.wellFormed params (.emitMwv 0xFFFF 0) = true ∧
    Instr.wellFormed params (.mwv ii [[], List.replicate 1014 0x30]) = true := by decide +kernel

theorem witness_EncodeOfDecodedTransactionIsTheRecord :
    decode params (.txn ⟨0x07, [.nat 65535, .rat 0]⟩) = .ok (.emitMwv 0xFFFF 0) := by decide +kernel

theorem witness_DecodedLineIsAWellFormedSentence :
    lacks Chr.lf (ascii "$IIDPT,*6c") = true ∧ (ascii "$IIDPT,*6c").length ≤ Config.frameCap ∧
    decode params (.line (ascii "$IIDPT,*6c")) = .ok (.dpt ii [[], []]) := by decide +kernel

/-- One TICK issued by the timer. -/
def oneTick : State := { start with timerQ := [⟨0x03, [.nat 1023]⟩], schedule := [.timer] }

theorem witness_StepRunsTheDecodedTransaction :
    oneTick.schedule = .timer :: [] ∧ pending .timer oneTick = ⟨0x03, [.nat 1023]⟩ :: [] ∧
    decode oneTick.cfg (.txn ⟨0x03, [.nat 1023]⟩) = .ok (.tick 1023) := by decide +kernel

theorem witness_CompletedLineRunsItsSentence :
    decode start.cfg (.line (completedLine (ascii "$IIDPT,3*5f\r"))) = .ok (.dpt ii [[], [0x33]]) := by decide +kernel

theorem witness_IdleStepKeepsTheState : start.schedule = [] := rfl

theorem witness_StepTakesOneTurnInIssueOrder :
    oneTick.schedule = .timer :: [] ∧ step oneTick = .next (result (step oneTick)) ∧ Source.host ≠ Source.timer :=
  ⟨rfl, rfl, by decide⟩

theorem witness_StepsRunAnyInterleavingInOneTotalOrder : start.schedule = [] ∧ ∀ src, pending src start = [] :=
  ⟨rfl, fun src => by cases src <;> rfl⟩

/-- A PULSE issued by the host (R123). -/
def hostPulse : State := { start with hostQ := [⟨0x02, [.nat 5]⟩], schedule := [.host] }

/-- A turn with a legal transaction, and a pulse that the host issues. -/
theorem witness_EveryIssuedTransactionIsTaken_turn :
    (oneTick.schedule = .timer :: [] ∧ pending .timer oneTick = ⟨0x03, [.nat 1023]⟩ :: [] ∧
      Txn.legal oneTick.cfg ⟨0x03, [.nat 1023]⟩ = true) ∧
    (hostPulse.schedule = .host :: [] ∧ pending .host hostPulse = ⟨0x02, [.nat 5]⟩ :: [] ∧
      Txn.legal hostPulse.cfg ⟨0x02, [.nat 5]⟩ = true) := by
  decide +kernel

theorem witness_EveryIssuedTransactionIsTaken_pending : ∀ src, ∀ x ∈ pending src oneTick, x.legal oneTick.cfg = true := by
  intro src; cases src <;> decide +kernel

/-- Both sides of the wrap of DI. -/
theorem witness_TickStoresTheSampleAndReportsOnTheWrap :
    (result (exec (.tick 0) { start with di := 9 })).di.val = 0 ∧ (result (exec (.tick 0) start)).di.val ≠ 0 := by decide +kernel

theorem witness_ReportHeadingIsTheCorrectedRoundedMean :
    ∀ j : Fin 10, (Vector.replicate 10 1023)[j] < 2 ^ params.adcBits := by decide

/-- Timestamps with the newest at 0 and the oldest as given. -/
def pulsed (oldest : Nat) : State := { start with pr := (Vector.replicate 10 0).set 0 oldest }

/-- Ten equal timestamps (V-P4). -/
def stopped : State := { start with pr := Vector.replicate 10 5000 }

/-- A zero oldest timestamp; a zero span; neither. -/
theorem witness_ReportSpeedIsNineIntervalsOverTheSpan :
    (0 = (pulsed 0).pr.toList.getD (pulsed 0).pi.val 0 ∧ 0 = (pulsed 0).pr.toList.getD (((pulsed 0).pi.val + 9) % 10) 0 ∧
      ((0 : Nat) : Int) = (((0 : Nat) : Int) - ((0 : Nat) : Int)) % (2 ^ (pulsed 0).cfg.tsBits)) ∧
    (5000 = stopped.pr.toList.getD stopped.pi.val 0 ∧ 5000 = stopped.pr.toList.getD ((stopped.pi.val + 9) % 10) 0 ∧
      ((0 : Nat) : Int) = (((5000 : Nat) : Int) - ((5000 : Nat) : Int)) % (2 ^ stopped.cfg.tsBits)) ∧
    (4294967295 = (pulsed 4294967295).pr.toList.getD (pulsed 4294967295).pi.val 0 ∧
      0 = (pulsed 4294967295).pr.toList.getD (((pulsed 4294967295).pi.val + 9) % 10) 0 ∧
      ((1 : Nat) : Int) = (((0 : Nat) : Int) - ((4294967295 : Nat) : Int)) % (2 ^ (pulsed 4294967295).cfg.tsBits)) := by
  decide +kernel

theorem witness_ReportsComeOnEveryTenthTick :
    exec (.tick 5) { start with di := 9 } = .next (result (exec (.tick 5) { start with di := 9 })) ∧
    (∀ x ∈ ticks 5 2, x.op ≠ 0x00) ∧ runTxns (ticks 5 2) start = .next (result (runTxns (ticks 5 2) start)) :=
  ⟨rfl, by decide, rfl⟩

theorem witness_RingHoldsTheTenSamplesSinceTheWrap :
    start.di.val = 0 ∧ (∀ x ∈ ticks 5 10, x.op ≠ 0x00) ∧ ((ticks 5 10).filterMap Txn.tickCode).length = 10 ∧
    completes (runTxns (ticks 5 10) start) = true := by decide +kernel

/-- Ten PULSEs, and a list without PULSE. -/
theorem witness_SpeedComesFromTheLastTenPulses :
    ((∀ x ∈ pulses (List.range 10), x.op ≠ 0x00) ∧ 10 ≤ ((pulses (List.range 10)).filterMap Txn.pulseStamp).length ∧
      completes (runTxns (pulses (List.range 10)) start) = true) ∧
    ((∀ x ∈ ticks 5 1, x.op ≠ 0x00) ∧ (ticks 5 1).filterMap Txn.pulseStamp = [] ∧
      completes (runTxns (ticks 5 1) start) = true) := by decide +kernel

theorem witness_SpeedIsZeroUntilTenPulsesSinceReset :
    start.block = State.reset.block ∧ (∀ x ∈ pulses (List.range 9), x.op ≠ 0x00) ∧
    ((pulses (List.range 9)).filterMap Txn.pulseStamp).length < 10 ∧
    completes (runTxns (pulses (List.range 9)) start) = true := by decide +kernel

/-- -359 and -1. -/
theorem witness_SetCorrStoresTheOperandModulo360 :
    (-359 ≤ (0xFE99 : BitVec 16).toInt ∧ (0xFE99 : BitVec 16).toInt < 0) ∧
    (-359 ≤ (0xFFFF : BitVec 16).toInt ∧ (0xFFFF : BitVec 16).toInt < 0) := by decide

theorem witness_CorrectionReachesTheNextReport : ({ start with di := 9 } : State).di.val = 9 := rfl

theorem witness_EncodeEmitsTheAssembledSentence :
    ascii "IIDPT,3" = [ii.c1, ii.c2, 0x44, 0x50, 0x54, Chr.comma] ++ List.intercalate [Chr.comma] [[0x33]] := by
  decide +kernel

theorem witness_FormattedNumberIsTheNearestTenth : (0 : Rat) ≤ 0 ∧ (0 : Rat) ≤ 5 / 100 := by decide +kernel

theorem witness_FrameHoldsTheLatestBytesSinceTheLastLf :
    lacks Chr.lf (ascii "AB\r") = true ∧ (List.replicate 1024 (0x41 : Byte)).length ≤ 1024 := by decide +kernel

theorem witness_ByteIsAppendedAndTheOldestDiscardedWhenFull :
    Chr.cr ≠ Chr.lf ∧ (List.replicate 1024 (0x41 : Byte)).length = 1024 ∧ (List.replicate 1023 (0x41 : Byte)).length ≠ 1024 := by
  decide +kernel

theorem witness_LineFeedEndsTheLine :
    ascii "A\r" = ascii "A" ++ [Chr.cr] ∧ (ascii "A").getLast? ≠ some Chr.cr ∧ start.fb = [] ∧
    ({ start with fb := [Chr.cr] } : State).fb = [Chr.cr] := by decide +kernel

theorem witness_BatchOfLinesGivesOneEventEachInOrder :
    start.fb = [] ∧ ∀ L ∈ [ascii "$IIDPT,3*5f", List.replicate 1023 (0x41 : Byte), []],
      lacks Chr.lf L = true ∧ L.length + 1 ≤ 1024 := by decide +kernel

theorem witness_LongestLineDeliveredWhole :
    start.fb = [] ∧ lacks Chr.lf (List.replicate 1024 0x41) = true ∧
    (List.replicate 1024 (0x41 : Byte)).getLast? ≠ some Chr.cr ∧ 1024 ≤ (List.replicate 1024 (0x41 : Byte)).length ∧
    ((List.replicate 1024 (0x41 : Byte)).drop 1).head? ≠ some Chr.dollar := by decide +kernel

theorem witness_LongestLineDeliveredWhole_bareLf :
    lacks Chr.lf (List.replicate 1025 0x41) = true ∧ 1025 ≤ (List.replicate 1025 (0x41 : Byte)).length ∧
    ((List.replicate 1025 (0x41 : Byte)).drop 1).head? ≠ some Chr.dollar := by decide +kernel

theorem witness_SameBytesTwiceGiveTheSameEventsTwice :
    start.fb = [] ∧ (ascii "$IIDPT,3*5f\n").getLast? = some Chr.lf := by decide +kernel

/-- A line of length 9; one of length 10 without `$`; a missing `*`, a bad first and a bad second digit. -/
theorem witness_LineIsCheckedInOrderAndDispatched_rejected :
    (ascii "$IIMWV*4c").length < 10 ∧
    (10 ≤ (ascii "!IIDPT,*6c").length ∧ (ascii "!IIDPT,*6c").head? ≠ some Chr.dollar) ∧
    (10 ≤ (ascii "$IIDPT,36c").length ∧ (ascii "$IIDPT,36c").head? = some Chr.dollar ∧
      (ascii "$IIDPT,36c")[10 - 3]? ≠ some Chr.star) ∧
    ((ascii "$IIDPT,*gc")[10 - 2]?).bind hexval = none ∧ ((ascii "$IIDPT,*6g")[10 - 1]?).bind hexval = none := by
  decide +kernel

/-- The longest witness chain: every check passes; the checksum right and wrong; a verb outside the registry and each in it. -/
theorem witness_LineIsCheckedInOrderAndDispatched_passed :
    (∀ L ∈ [ascii "$IIDPT,*6c", ascii "$IIMWV,*60", ascii "$IIVTG,1,T,2,M,3*40", ascii "$IIHDM,123.4,M*26"],
      10 ≤ L.length ∧ L.head? = some Chr.dollar ∧ L[L.length - 3]? = some Chr.star ∧
      ∃ hi : Fin 16, ∃ lo : Fin 16, (L[L.length - 2]?).bind hexval = some hi.val ∧ (L[L.length - 1]?).bind hexval = some lo.val ∧
        (xorAll ((L.drop 1).take (L.length - 4))).toNat = hi.val * 16 + lo.val) ∧
    (xorAll (((ascii "$IIDPT,*6d").drop 1).take 6)).toNat ≠ 6 * 16 + 13 ∧
    ((ascii "$IIHDM,123.4,M*26").drop 3).take 3 ∉ registryKeys ∧ ii.bytes = ((ascii "$IIDPT,*6c").drop 1).take 2 ∧
    ((ascii "$IIMWV,*60").drop 3).take 3 = ascii "MWV" ∧ ((ascii "$IIVTG,1,T,2,M,3*40").drop 3).take 3 = ascii "VTG" ∧
    ((ascii "$IIDPT,*6c").drop 3).take 3 = ascii "DPT" := by decide +kernel

theorem witness_NumberGrammarAndValue :
    parseNum (ascii "-.25") = some ⟨true, 0, 25, 2⟩ ∧ IsNumText (ascii "-.25") true [] (ascii "25") :=
  ⟨by decide +kernel, by decide +kernel, by decide +kernel, .inr ⟨by decide +kernel, by decide +kernel⟩⟩

theorem witness_TruncationIsTowardZero :
    IsNumText (ascii "5.") false (ascii "5") [] ∧ parseNum (ascii "5.") = some ⟨false, 5, 0, 0⟩ :=
  ⟨⟨by decide +kernel, by decide +kernel, .inr ⟨by decide +kernel, by decide +kernel⟩⟩, by decide +kernel⟩

theorem witness_MwvSentenceIsParsed :
    ([[], []] : List Str).length ≠ 6 ∧ parseNum [] = none ∧ parseNum (ascii "90.0") ≠ none ∧ parseNum (ascii "abc") = none ∧
    (ascii "n" ≠ ascii "M" ∧ ascii "n" ≠ ascii "K" ∧ ascii "n" ≠ ascii "N") ∧
    parseNum (ascii "90.0") = some ⟨false, 90, 0, 1⟩ ∧ parseNum (ascii "-5") = some ⟨true, 5, 0, 0⟩ := by decide +kernel

/-- Fewer than 6 fields and exactly 6; courses at -1, 0, 360 and 360.1. -/
theorem witness_VtgSentenceIsParsed :
    ([[], [], [], [], []] : List Str).length < 6 ∧ parseNum (ascii "x") = none ∧
    (parseNum (ascii "-1") = some ⟨true, 1, 0, 0⟩ ∧ ¬(0 ≤ (NumText.mk true 1 0 0).value ∧ (NumText.mk true 1 0 0).value ≤ 360)) ∧
    (parseNum (ascii "360.1") = some ⟨false, 360, 1, 1⟩ ∧
      ¬(0 ≤ (NumText.mk false 360 1 1).value ∧ (NumText.mk false 360 1 1).value ≤ 360)) ∧
    (parseNum (ascii "360.0") = some ⟨false, 360, 0, 1⟩ ∧
      0 ≤ (NumText.mk false 360 0 1).value ∧ (NumText.mk false 360 0 1).value ≤ 360) ∧
    (parseNum (ascii "-0") = some ⟨true, 0, 0, 0⟩ ∧ 0 ≤ (NumText.mk true 0 0 0).value) ∧
    parseNum (ascii "6.2") = some ⟨false, 6, 2, 1⟩ := by decide +kernel

theorem witness_DptSentenceIsParsed :
    [ascii "3"].length < 2 ∧ parseNum (ascii "+5") = none ∧ parseNum (ascii "12.5") = some ⟨false, 12, 5, 1⟩ := by
  decide +kernel

/-- W8: bit 0 of byte 7. -/
theorem witness_SingleBitFlipIsAChecksumMismatch :
    let L := ascii "$IIMWV,90.0,R,10.0,N,A*35"
    start.fb = [] ∧ lacks Chr.lf L = true ∧ L.length + 1 ≤ 1024 ∧
    decodeSentence L = .ok ⟨.mwv, ii, [[], ascii "90.0", ascii "R", ascii "10.0", ascii "N", ascii "A"]⟩ ∧
    1 ≤ 7 ∧ 7 ≤ L.length - 4 ∧ L[7]? = some 0x39 ∧ (0x38 : Byte) = 0x39 ^^^ BitVec.twoPow 8 0 ∧ (0x38 : Byte) ≠ Chr.lf := by
  decide +kernel

/-- V-F12, and the last byte of the region. -/
theorem witness_BitFlipToLineFeedDispatchesNothing :
    let L := ascii "$JJDPT,3*5f"
    start.fb = [] ∧ lacks Chr.lf L = true ∧ L.length + 1 ≤ 1024 ∧
    decodeSentence L = .ok ⟨.dpt, ⟨0x4A, 0x4A⟩, [[], ascii "3"]⟩ ∧
    lacks Chr.dollar ((L.drop 1).take (L.length - 4)) = true ∧ lacks Chr.star ((L.drop 1).take (L.length - 4)) = true ∧
    1 ≤ 1 ∧ 1 ≤ L.length - 4 ∧ 7 ≤ L.length - 4 := by decide +kernel

/-- The longest output that is read back whole: 1025 bytes with its CR LF. -/
theorem witness_EncodedSentenceIsReadBack :
    let fields : List Str := [List.replicate 1013 0x30]
    start.fb = [] ∧ fields ≠ [] ∧ fields.all (lacks Chr.comma) = true ∧ fields.all (lacks Chr.lf) = true ∧
    lacks Chr.lf ii.bytes = true ∧
    (encodeOut ii (verbBytesOfKey (SentenceVerb.key .dpt)) fields).length = 1024 + 1 := by decide +kernel

theorem witness_EmittedWindSentenceIsReadBack :
    let bytes := ascii "$IIMWV,180.0,R,2.0,N,A*36\r\n"
    start.fb = [] ∧ (0 : Rat) ≤ 1955196 / 1000000 ∧ bytes.length ≤ 1024 + 1 ∧
    mwvSentence start.cfg.roundTies (1800 : BitVec 16).toNat (1955196 / 1000000) = bytes := by decide +kernel

theorem witness_OutputIsAppendedToAndNeverRead :
    execTxn ⟨0x05, []⟩ start = .next { start with out := [.corrVal 0] } ∧
    execTxn ⟨0x09, []⟩ start = .next { start with out := [.refused 0x09] } := ⟨rfl, rfl⟩

theorem witness_TokenizerCutsAtEveryComma : (ascii ",3").head? = some Chr.comma := by decide +kernel

/-- The ends of the three ranges and the bytes beside them. -/
theorem witness_HexDigitsAreReadInEitherCase_ranges :
    (∀ c ∈ [0x30, 0x39], 0x30 ≤ (BitVec.ofNat 8 c).toNat ∧ (BitVec.ofNat 8 c).toNat ≤ 0x39) ∧
    (∀ c ∈ [0x41, 0x46], 0x41 ≤ (BitVec.ofNat 8 c).toNat ∧ (BitVec.ofNat 8 c).toNat ≤ 0x46) ∧
    (∀ c ∈ [0x61, 0x66], 0x61 ≤ (BitVec.ofNat 8 c).toNat ∧ (BitVec.ofNat 8 c).toNat ≤ 0x66) ∧
    (∀ c ∈ [0x2F, 0x3A, 0x40, 0x47, 0x60, 0x67],
      ¬(0x30 ≤ (BitVec.ofNat 8 c).toNat ∧ (BitVec.ofNat 8 c).toNat ≤ 0x39) ∧
      ¬(0x41 ≤ (BitVec.ofNat 8 c).toNat ∧ (BitVec.ofNat 8 c).toNat ≤ 0x46) ∧
      ¬(0x61 ≤ (BitVec.ofNat 8 c).toNat ∧ (BitVec.ofNat 8 c).toNat ≤ 0x66)) := by decide

/-- A checksum of mixed case at the line's end, and two spellings of one digit. -/
theorem witness_HexDigitsAreReadInEitherCase_lines :
    let L := ascii "$IIDPT,*aB"
    10 ≤ L.length ∧ L[L.length - 3]? = some Chr.star ∧ (L[L.length - 2]?).bind hexval = some 10 ∧
    (L[L.length - 1]?).bind hexval = some 11 ∧
    hexval 0x61 = hexval 0x41 ∧ hexval 0x66 = hexval 0x46 := by decide +kernel

theorem witness_RejectionsAreNumberedOneToTen : rejectNumber .badUnit = rejectNumber .badUnit := rfl

theorem witness_InstructionsWriteOnlyTheirOwnState : exec (.pulse 5) start = .next (result (exec (.pulse 5) start)) := rfl

theorem witness_InstructionsReadOnlyTheirOwnState :
    start.fb = [] ∧ (∀ b, Instr.getCorr ≠ .rxByte b) ∧ Instr.getCorr ≠ .reset ∧ (∀ c, Instr.getCorr ≠ .tick c) ∧
    (∀ ts, Instr.getCorr ≠ .pulse ts) ∧ (∀ n, Instr.emitHdm 0 ≠ .setCorr n) ∧ Instr.emitHdm 0 ≠ .getCorr ∧
    exec .getCorr start = .next (result (exec .getCorr start)) :=
  ⟨rfl, fun _ => by simp, by simp, fun _ => by simp, fun _ => by simp, fun _ => by simp, by simp, rfl⟩

theorem witness_StepKeepsTheInvariant : oneTick.Inv ∧ step oneTick = .next (result (step oneTick)) :=
  ⟨by decide +kernel, rfl⟩

end Tests
end Sys2Proof
end

/-! ### OUT is appended to and never read (10_state.md R26) -/

namespace Sys2Proof
namespace Machine

/-- From `s`, whatever history OUT is given in place of its own, `f` appends `evs` to it and is otherwise the same. -/
def AppendsUnread (f : State → State) (s : State) (evs : List Event) : Prop :=
  ∀ history : List Event, f { s with out := history } = { f s with out := history ++ evs }

/-- The state's own history is one of those. -/
theorem AppendsUnread.out {f : State → State} {s : State} {evs : List Event} (h : AppendsUnread f s evs) :
    (f s).out = s.out ++ evs :=
  congrArg State.out (h s.out)

/-- An update that carries OUT along unread appends nothing. -/
theorem appendsUnread_nil {f : State → State} {s : State}
    (h : ∀ history : List Event, f { s with out := history } = { f s with out := history }) :
    AppendsUnread f s [] := fun history => by rw [List.append_nil, h]

theorem emit_appendsUnread (ev : Event) (s : State) : AppendsUnread (emit ev) s [ev] := fun _ => rfl

/-- The events of a TICK are computed from the rings, the correction and the configuration alone. -/
theorem tickEvents_with_out (code : Nat) (s : State) (history : List Event) :
    tickEvents code { s with out := history } = tickEvents code s := rfl

/-- Every instruction appends events that OUT has no part in. -/
theorem after_appendsUnread (i : Instr) (s : State) : ∃ evs : List Event, AppendsUnread (after i) s evs := by
  cases i with
  | reset => exact ⟨[], appendsUnread_nil fun _ => rfl⟩
  | rxByte b =>
    exact ⟨if b = Chr.lf then [lineEvent (completedLine s.fb)] else overflowEvents s.fb, fun _ => rfl⟩
  | pulse ts => exact ⟨[], appendsUnread_nil fun _ => rfl⟩
  | tick code =>
    refine ⟨tickEvents code s, fun history => ?_⟩
    rw [after, tickEvents_with_out, after]
  | setCorr n => exact ⟨[], appendsUnread_nil fun _ => rfl⟩
  | getCorr => exact ⟨_, emit_appendsUnread (.corrVal s.corr.toNat) s⟩
  | encode talker verb fields => exact ⟨_, emit_appendsUnread _ s⟩
  | emitMwv h q => exact ⟨_, emit_appendsUnread (.tx (mwvSentence s.cfg.roundTies h.toNat q)) s⟩
  | emitHdm h => exact ⟨_, emit_appendsUnread _ s⟩
  | mwv talker fields => exact ⟨_, emit_appendsUnread _ s⟩
  | vtg talker fields => exact ⟨_, emit_appendsUnread _ s⟩
  | dpt talker fields => exact ⟨_, emit_appendsUnread _ s⟩
  | hdm talker fields => exact ⟨_, emit_appendsUnread _ s⟩

/-- So does every transaction that is taken: how it decodes depends on the configuration alone. -/
theorem execTxn_appendsUnread {x : Txn} {s t : State} (h : execTxn x s = .next t) :
    ∃ (f : State → State) (evs : List Event), t = f s ∧ AppendsUnread f s evs ∧
      ∀ history : List Event, execTxn x { s with out := history } = .next (f { s with out := history }) := by
  obtain ⟨i, hdecode, rfl⟩ | ⟨op, hdecode, rfl⟩ := execTxn_next h
  · obtain ⟨evs, hevs⟩ := after_appendsUnread i s
    exact ⟨after i, evs, rfl, hevs, fun _ => execTxn_ok hdecode⟩
  · exact ⟨emit (.refused op), [.refused op], rfl, emit_appendsUnread _ s, fun _ => execTxn_reserved hdecode⟩

/-- Settles O54: what an instruction appends is computed without OUT, and how a transaction decodes does not see OUT. -/
theorem outputIsAppendedToAndNeverRead : Obligations.OutputIsAppendedToAndNeverRead := by
  unfold Obligations.OutputIsAppendedToAndNeverRead
  constructor
  · intro i s
    obtain ⟨evs, hevs⟩ := after_appendsUnread i s
    exact ⟨after i s, evs, hevs.out, exec_eq_after i s, fun history => by rw [exec_eq_after, hevs history]⟩
  · intro x s t h
    obtain ⟨f, evs, rfl, hevs, hexec⟩ := execTxn_appendsUnread h
    exact ⟨evs, hevs.out, fun history => by rw [hexec, hevs history]⟩

end Machine
end Sys2Proof

/-! ### Feeding bytes (20_memory.md R46) -/

namespace Sys2Proof
namespace Machine

/-- From FB = `fb`, whatever else the state holds, the bytes `c` leave FB = `fb'` and append `evs`, and write nothing more. -/
def Feeds (c fb fb' : Str) (evs : List Event) : Prop :=
  ∀ s : State, s.fb = fb → runTxns (rxChunk c) s = .next { s with fb := fb', out := s.out ++ evs }

theorem feeds_nil (fb : Str) : Feeds [] fb fb [] := by
  rintro s rfl
  rw [List.append_nil]
  rfl

/-- One byte, by what RX_BYTE does. -/
theorem feeds_singleton (b : Byte) (fb : Str) : ∃ fb' evs, Feeds [b] fb fb' evs := by
  refine ⟨if b = Chr.lf then [] else frameWith b fb,
    if b = Chr.lf then [lineEvent (completedLine fb)] else overflowEvents fb, ?_⟩
  rintro s rfl
  rw [runTxns_rxChunk_cons]
  rfl

/-- The second chunk starts from the FB the first one leaves. -/
theorem Feeds.append {a b fb fb₁ fb₂ : Str} {evs₁ evs₂ : List Event} (ha : Feeds a fb fb₁ evs₁)
    (hb : Feeds b fb₁ fb₂ evs₂) : Feeds (a ++ b) fb fb₂ (evs₁ ++ evs₂) := by
  intro s hs
  rw [rxChunk_append, runTxns_append_next (ha s hs), hb _ rfl, List.append_assoc]

/-- What a chunk leaves in FB and what it emits depend on FB alone. -/
theorem exists_feeds (c fb : Str) : ∃ fb' evs, Feeds c fb fb' evs := by
  induction c generalizing fb with
  | nil => exact ⟨fb, [], feeds_nil fb⟩
  | cons b c ih =>
    obtain ⟨fb₁, evs₁, hbyte⟩ := feeds_singleton b fb
    obtain ⟨fb₂, evs₂, hrest⟩ := ih fb₁
    exact ⟨fb₂, evs₁ ++ evs₂, hbyte.append hrest⟩

theorem feeds_lf (fb : Str) : Feeds [Chr.lf] fb [] [lineEvent (completedLine fb)] := by
  rintro s rfl
  exact runTxns_lf s

/-- A chunk that ends with LF leaves FB empty, whatever FB held before it. -/
theorem exists_feeds_of_getLast?_lf {c : Str} (h : c.getLast? = some Chr.lf) (fb : Str) : ∃ evs, Feeds c fb [] evs := by
  obtain ⟨body, rfl⟩ := List.getLast?_eq_some_iff.1 h
  obtain ⟨fb₁, evs, hbody⟩ := exists_feeds body fb
  exact ⟨_, hbody.append (feeds_lf fb₁)⟩

/-- When the bytes leave FB as it was, OUT is all that changes. -/
theorem Feeds.runTxns_of_fb_eq {c fb : Str} {evs : List Event} (h : Feeds c fb fb evs) {s : State} (hs : s.fb = fb) :
    runTxns (rxChunk c) s = .next { s with out := s.out ++ evs } := by
  subst hs
  exact h s rfl

/-- Settles O40: the first feed ends with the empty FB it began with, so the second is a feed from the same FB. -/
theorem sameBytesTwiceGiveTheSameEventsTwice : Obligations.SameBytesTwiceGiveTheSameEventsTwice := by
  unfold Obligations.SameBytesTwiceGiveTheSameEventsTwice
  intro s bytes hs hlast
  obtain ⟨evs, honce⟩ := exists_feeds_of_getLast?_lf hlast []
  refine ⟨evs, honce.runTxns_of_fb_eq hs, ?_⟩
  rw [(honce.append honce).runTxns_of_fb_eq hs, List.append_assoc]

end Machine
end Sys2Proof

/-! ### The tokenizer (30_encoding.md R60) -/

namespace Sys2Proof

/-- Each comma ends one field, and one field follows the last. -/
theorem split_length (body : Str) : (split body).length = body.count Chr.comma + 1 := by
  induction body with
  | nil => rfl
  | cons b bs ih =>
    by_cases hb : b = Chr.comma
    · subst hb
      rw [split_cons_comma, List.length_cons, ih, List.count_cons_self]
    · obtain ⟨f, fs, htail, hcons⟩ := split_cons_other hb bs
      rw [htail, List.length_cons] at ih
      rw [hcons, List.length_cons, ih, List.count_cons_of_ne hb]

theorem comma_not_mem_of_mem_split {body f : Str} (hf : f ∈ split body) : Chr.comma ∉ f :=
  (lacks_iff _ _).1 (List.all_eq_true.1 (split_all_lacks body) f hf)

theorem split_head?_of_comma {body : Str} (h : body.head? = some Chr.comma) : (split body).head? = some [] := by
  obtain ⟨bs, rfl⟩ := List.head?_eq_some_iff.1 h
  rw [split_cons_comma, List.head?_cons]

/-- Settles O43: the join of the fields is the body, and an induction along the body counts them. -/
theorem tokenizerCutsAtEveryComma : Obligations.TokenizerCutsAtEveryComma := by
  unfold Obligations.TokenizerCutsAtEveryComma
  intro body
  have hrejoin : List.intercalate [Chr.comma] (split body) = body := by rw [← join_eq_intercalate, join_split]
  exact ⟨hrejoin, split_length body, fun _ => comma_not_mem_of_mem_split, split_head?_of_comma⟩

end Sys2Proof

/-! ### Numeric fields (30_encoding.md R62, R63) -/

namespace Sys2Proof
namespace Machine

/-- The value of the parts that a text of NUM reads as, with the digits' values taken independently of the parser. -/
theorem value_of_digits (negative : Bool) (whole frac : Str) :
    (NumText.mk negative (digitsValue whole) (digitsValue frac) frac.length).value =
      (if negative then -1 else 1) * ((decimalValue whole : Rat) + (decimalValue frac : Rat) / 10 ^ frac.length) := by
  rw [decimalValue_eq, decimalValue_eq]
  cases negative <;> simp [NumText.value, NumText.sign]

theorem trunc_of_digits (negative : Bool) (whole : Str) (frac fracDigits : Nat) :
    (NumText.mk negative (digitsValue whole) frac fracDigits).trunc =
      (if negative then -1 else 1) * (decimalValue whole : Int) := by
  rw [decimalValue_eq]
  rfl

/-- What is read as a number has fewer than `10^|F|` fraction units: F is a string of `|F|` digits. -/
theorem parseNum_frac_lt {f : Str} {n : NumText} (h : parseNum f = some n) : n.frac < 10 ^ n.fracDigits := by
  obtain ⟨whole, frac, ⟨_, hfrac, _⟩, hn⟩ := parseNum_text h
  rw [hn]
  exact digitsValue_lt hfrac

/-- Settles O44: the parser inverts the grammar both ways, and its parts have the rule's value. -/
theorem numberGrammarAndValue : Obligations.NumberGrammarAndValue := by
  unfold Obligations.NumberGrammarAndValue
  constructor
  · intro f n h
    obtain ⟨whole, frac, htext, -⟩ := parseNum_text h
    exact ⟨n.negative, whole, frac, htext⟩
  · intro f negative whole frac htext
    exact ⟨_, parseNum_of_text htext, value_of_digits negative whole frac⟩

/-- Settles O45: the fraction of a number read is below 1, so dropping it truncates toward zero. -/
theorem truncationIsTowardZero : Obligations.TruncationIsTowardZero := by
  unfold Obligations.TruncationIsTowardZero
  constructor
  · intro f n h
    exact trunc_eq_floor_or_ceil n.negative n.whole n.frac n.fracDigits (parseNum_frac_lt h)
  · intro f negative whole frac n htext h
    obtain rfl : _ = n := Option.some.inj ((parseNum_of_text htext).symm.trans h)
    exact trunc_of_digits negative whole _ _

end Machine
end Sys2Proof

/-! ### Hex digits, and the two that end a line (30_encoding.md R57) -/

namespace Sys2Proof
open Machine

theorem hexval_decimal {c : Byte} (h : 0x30 ≤ c.toNat ∧ c.toNat ≤ 0x39) : hexval c = some (c.toNat - 0x30) :=
  if_pos h

theorem hexval_upper {c : Byte} (h : 0x41 ≤ c.toNat ∧ c.toNat ≤ 0x46) : hexval c = some (c.toNat - 0x41 + 10) := by
  have hdec : ¬(0x30 ≤ c.toNat ∧ c.toNat ≤ 0x39) := by omega
  exact (if_neg hdec).trans (if_pos h)

theorem hexval_lower {c : Byte} (h : 0x61 ≤ c.toNat ∧ c.toNat ≤ 0x66) : hexval c = some (c.toNat - 0x61 + 10) := by
  have hdec : ¬(0x30 ≤ c.toNat ∧ c.toNat ≤ 0x39) := by omega
  have hupper : ¬(0x41 ≤ c.toNat ∧ c.toNat ≤ 0x46) := by omega
  exact (if_neg hdec).trans ((if_neg hupper).trans (if_pos h))

theorem hexval_none {c : Byte} (hdec : ¬(0x30 ≤ c.toNat ∧ c.toNat ≤ 0x39))
    (hupper : ¬(0x41 ≤ c.toNat ∧ c.toNat ≤ 0x46)) (hlower : ¬(0x61 ≤ c.toNat ∧ c.toNat ≤ 0x66)) : hexval c = none :=
  (if_neg hdec).trans ((if_neg hupper).trans (if_neg hlower))

/-- Two hex digits spell a number that fits the byte. -/
theorem toNat_ofNat_hexval {a b : Byte} {hi lo : Nat} (hhi : hexval a = some hi) (hlo : hexval b = some lo) :
    (BitVec.ofNat 8 (hi * 16 + lo)).toNat = hi * 16 + lo := by
  have := hexval_lt hhi
  have := hexval_lt hlo
  rw [BitVec.toNat_ofNat]
  omega

/-- A slice that ends inside the first part does not see the second. -/
theorem slice_append_left (L t : Str) (i : Nat) {j : Nat} (h : j < L.length) : slice (L ++ t) i j = slice L i j := by
  unfold slice
  by_cases hi : i ≤ L.length
  · rw [List.drop_append_of_le_length hi, List.take_append_of_le_length (by rw [List.length_drop]; omega)]
  · rw [show j + 1 - i = 0 by omega, List.take_zero, List.take_zero]

/-- The checksum field sees the last two bytes through `hexval` alone. -/
theorem checksumField_append_digits {L : Str} {a b a' b' : Byte} (hL : L ≠ []) (ha : hexval a = hexval a')
    (hb : hexval b = hexval b') : checksumField (L ++ [a, b]) = checksumField (L ++ [a', b']) := by
  have hpos : 0 < L.length := List.length_pos_iff.2 hL
  have hstar (x y : Byte) : byteAt (L ++ [x, y]) (L.length + 2 - 3) = byteAt L (L.length + 2 - 3) :=
    byteAt_append_left _ _ _ (by omega)
  have hfirst (x y : Byte) : byteAt (L ++ [x, y]) (L.length + 2 - 2) = x := by
    rw [byteAt_append_right _ _ _ (by omega), show L.length + 2 - 2 - L.length = 0 by omega]
    rfl
  have hsecond (x y : Byte) : byteAt (L ++ [x, y]) (L.length + 2 - 1) = y := by
    rw [byteAt_append_right _ _ _ (by omega), show L.length + 2 - 1 - L.length = 1 by omega]
    rfl
  have hlen (x y : Byte) : (L ++ [x, y]).length = L.length + 2 := List.length_append
  simp only [checksumField, hlen, hstar, hfirst, hsecond, ha, hb]

/-- A line is decoded by its length, its first byte, its checksum field, and the parts the checksum covers. -/
theorem decodeSentence_congr {L L' : Str} (hlen : L.length = L'.length)
    (h : Config.minLine ≤ L.length → byteAt L 0 = byteAt L' 0 ∧ checksumField L = checksumField L' ∧
      checksumRegion L = checksumRegion L' ∧ lineVerb L = lineVerb L' ∧ lineTalker L = lineTalker L' ∧
      lineBody L = lineBody L') : decodeSentence L = decodeSentence L' := by
  by_cases hshort : L.length < Config.minLine
  · rw [decodeSentence, decodeSentence, ← hlen, if_pos hshort, if_pos hshort]
  · obtain ⟨hdollar, hfield, hregion, hverb, htalker, hbody⟩ := h (Nat.le_of_not_lt hshort)
    rw [decodeSentence, decodeSentence, ← hlen, hdollar, hfield, hregion, hverb, htalker, hbody]

/-- The last two bytes are no part of what the checksum covers, so how they spell their digits does not matter. -/
theorem decodeSentence_append_digits (L : Str) {a b a' b' : Byte} (ha : hexval a = hexval a')
    (hb : hexval b = hexval b') : decodeSentence (L ++ [a, b]) = decodeSentence (L ++ [a', b']) := by
  refine decodeSentence_congr (by rw [List.length_append, List.length_append]; rfl) fun hlong => ?_
  have hlen (x y : Byte) : (L ++ [x, y]).length = L.length + 2 := List.length_append
  have hL : 8 ≤ L.length := by
    simp only [hlen, Config.minLine] at hlong
    omega
  have hbyte (x y : Byte) {i : Nat} (hi : i < 8) : byteAt (L ++ [x, y]) i = byteAt L i :=
    byteAt_append_left _ _ _ (by omega)
  have hslice (x y : Byte) (i : Nat) : slice (L ++ [x, y]) i (L.length + 2 - 4) = slice L i (L.length + 2 - 4) :=
    slice_append_left _ _ _ (by omega)
  refine ⟨?_, checksumField_append_digits (List.ne_nil_of_length_pos (by omega)) ha hb, ?_, ?_, ?_, ?_⟩
  · simp [hbyte]
  · simp only [checksumRegion, hlen, hslice]
  · simp [lineVerb, hbyte]
  · simp [lineTalker, hbyte]
  · simp only [lineBody, hlen, hslice]

/-- PROCESS_LINE sees a line through its decoding alone. -/
theorem processLine_congr {L L' : Str} (h : decodeSentence L = decodeSentence L') (s : State) :
    processLine L s = processLine L' s := by
  rw [processLine, processLine, h]

/-- Settles O59: the ranges of `hexval` are disjoint, and a line's last two bytes are read through it alone. -/
theorem hexDigitsAreReadInEitherCase : Obligations.HexDigitsAreReadInEitherCase := by
  unfold Obligations.HexDigitsAreReadInEitherCase
  refine ⟨fun c => ⟨?_, ?_, ?_, hexval_none⟩, ?_, ?_⟩
  · exact fun hlo hhi => hexval_decimal ⟨hlo, hhi⟩
  · exact fun hlo hhi => hexval_upper ⟨hlo, hhi⟩
  · exact fun hlo hhi => hexval_lower ⟨hlo, hhi⟩
  · intro L hi lo hlen hstar hhi hlo
    obtain ⟨a, -, ha⟩ := Option.bind_eq_some_iff.1 hhi
    obtain ⟨b, -, hb⟩ := Option.bind_eq_some_iff.1 hlo
    exact ⟨_, checksumField_some hlen hstar hhi hlo, toNat_ofNat_hexval ha hb⟩
  · intro L a b a' b' ha hb s
    exact processLine_congr (decodeSentence_append_digits L ha hb) s

end Sys2Proof

/-! ### Reserved selectors (30_encoding.md R50) -/

namespace Sys2Proof

/-- A reserved selector is no instruction, whatever operands stand with it. -/
theorem decodeTxn_reserved (p : Params) {op : Byte} (operands : List Operand) (h : 9 ≤ op.toNat) :
    decodeTxn p ⟨op, operands⟩ = .error (.reserved op) := by
  rw [decodeTxn, selectorOf_none h]

namespace Machine

/-- Settles O3: the decoder answers `reserved` before it looks at the operands, and that emits REFUSED(op) alone. -/
theorem reservedSelectorChangesNothingAndEmitsRefused :
    Obligations.ReservedSelectorChangesNothingAndEmitsRefused := by
  unfold Obligations.ReservedSelectorChangesNothingAndEmitsRefused
  intro s op operands h
  exact execTxn_reserved (decodeTxn_reserved s.cfg operands h)

end Machine
end Sys2Proof

/-! ### Each SAMPLER instruction by itself (40_sampler.md R71 to R76, R79 to R81) -/

namespace Sys2Proof
namespace Machine

/-- A ring after its slot `i` is written: the entry there, and the nine others. -/
theorem ring_set_getElem (v : Vector Nat Config.ringSize) (i : Fin Config.ringSize) (a : Nat) :
    (v.set i.val a i.isLt)[i] = a ∧ ∀ j : Fin Config.ringSize, j ≠ i → (v.set i.val a i.isLt)[j] = v[j] :=
  ⟨Vector.getElem_set_self i.isLt, fun _ hj => Vector.getElem_set_ne i.isLt _ fun e => hj (Fin.ext e.symm)⟩

/-- Settles O16: PULSE is the one write of PR and PI. -/
theorem pulseOverwritesTheOldestTimestamp : Obligations.PulseOverwritesTheOldestTimestamp := by
  unfold Obligations.PulseOverwritesTheOldestTimestamp
  intro s ts
  obtain ⟨hslot, hothers⟩ := ring_set_getElem s.pr s.pi ts
  exact ⟨after (.pulse ts) s, exec_eq_after _ s, hslot, hothers, rfl, rfl⟩

theorem tickEvents_of_wrap {code : Nat} {s : State} (h : ringNext s.di = 0) :
    tickEvents code s = reportEvents (writeSample code s) := if_pos h

theorem tickEvents_of_no_wrap {code : Nat} {s : State} (h : ringNext s.di ≠ 0) : tickEvents code s = [] := if_neg h

/-- Settles O17: what the report reads of the state after the TICK is what it read of the ring as just written, since OUT
is no part of either. -/
theorem tickStoresTheSampleAndReportsOnTheWrap : Obligations.TickStoresTheSampleAndReportsOnTheWrap := by
  unfold Obligations.TickStoresTheSampleAndReportsOnTheWrap
  intro s code
  obtain ⟨hslot, hothers⟩ := ring_set_getElem s.dr s.di code
  refine ⟨after (.tick code) s, exec_eq_after _ s, hslot, hothers, rfl, rfl, fun hdi => ?_, fun hdi => ?_⟩
  · have hwrap : ringNext s.di ≠ 0 := fun e => hdi (congrArg Fin.val e)
    rw [after, tickEvents_of_no_wrap hwrap, List.append_nil]
  · have hwrap : ringNext s.di = 0 := Fin.ext hdi
    rw [after, tickEvents_of_wrap hwrap]
    rfl

theorem meanOfRing_nonneg (s : State) : 0 ≤ meanOfRing s :=
  div_nonneg (Finset.sum_nonneg fun _ _ => Nat.cast_nonneg _) (by positivity)

/-- Ten codes, each below `2^ADC_BITS`, sum to less than ten times that. -/
theorem meanOfRing_lt_one {s : State} (h : ∀ j : Fin Config.ringSize, s.dr[j] < 2 ^ s.cfg.adcBits) :
    meanOfRing s < 1 := by
  have hcode (j : Fin Config.ringSize) : (s.dr[j] : Rat) < 2 ^ s.cfg.adcBits := by exact_mod_cast h j
  rw [meanOfRing, div_lt_one (by positivity)]
  calc ∑ j : Fin Config.ringSize, (s.dr[j] : Rat)
      < ∑ _j : Fin Config.ringSize, (2 : Rat) ^ s.cfg.adcBits :=
        Finset.sum_lt_sum_of_nonempty Finset.univ_nonempty fun j _ => hcode j
    _ = 10 * 2 ^ s.cfg.adcBits := by simp

/-- Settles O18: the rounded number is ROUND of the mean times 3600, which is not negative. -/
theorem reportHeadingIsTheCorrectedRoundedMean : Obligations.ReportHeadingIsTheCorrectedRoundedMean := by
  unfold Obligations.ReportHeadingIsTheCorrectedRoundedMean
  intro s
  have hmean : 0 ≤ meanOfRing s := meanOfRing_nonneg s
  refine ⟨⟨_, roundQ_nearest s.cfg.roundTies _ (mul_nonneg hmean (by norm_num)), ?_⟩, Nat.mod_lt _ (by norm_num), hmean,
    meanOfRing_lt_one⟩
  rw [reportHeading, rawHeading, directionMean_eq]

/-- A value below 360 fits the nine bits of CORR. -/
theorem writeCorr_toNat {v : Nat} (h : v < 360) (s : State) : (writeCorr v s).corr.toNat = v :=
  (BitVec.toNat_ofNat v 9).trans (Nat.mod_eq_of_lt (h.trans (by norm_num)))

/-- Settles O24: the Euclidean remainder is in 0 to 359, so CORR holds it whole. -/
theorem setCorrStoresTheOperandModulo360 : Obligations.SetCorrStoresTheOperandModulo360 := by
  unfold Obligations.SetCorrStoresTheOperandModulo360
  intro s n
  have hlt : (n.toInt % 360).toNat < 360 := by omega
  have hcorr : (after (.setCorr n) s).corr.toNat = (n.toInt % 360).toNat := writeCorr_toNat hlt s
  exact ⟨after (.setCorr n) s, exec_eq_after _ s, by omega, hcorr.trans_lt hlt, by omega, rfl⟩

/-- Settles O25: GET_CORR is one emitted event. -/
theorem getCorrEmitsTheCorrection : Obligations.GetCorrEmitsTheCorrection := by
  unfold Obligations.GetCorrEmitsTheCorrection
  exact fun s => exec_eq_after .getCorr s

end Machine
end Sys2Proof

/-! ### Which transactions are PULSEs and TICKs (30_encoding.md R48, R49) -/

namespace Sys2Proof

/-- The timestamp of a PULSE. -/
def Instr.pulseStamp : Instr → Option Nat
  | .pulse ts => some ts
  | _ => none

/-- The code of a TICK. -/
def Instr.tickCode : Instr → Option Nat
  | .tick code => some code
  | _ => none

theorem toNat_ofNat_of_fits {w v : Nat} (h : fitsBits w v = true) : (BitVec.ofNat w v).toNat = v :=
  (BitVec.toNat_ofNat v w).trans (Nat.mod_eq_of_lt ((fitsBits_iff w v).1 h))

theorem toInt_ofInt_of_fits {n : Int} (h : fitsS16 n = true) : (BitVec.ofInt 16 n).toInt = n := by
  obtain ⟨hlo, hhi⟩ := Bool.and_eq_true_iff.1 h
  have := of_decide_eq_true hlo
  have := of_decide_eq_true hhi
  rw [BitVec.toInt_ofInt, Int.bmod_eq_of_le] <;> omega

/-- An operand tuple that reads as an instruction is the one the encoder writes for it. -/
theorem encode_of_decodeOperands {p : Params} {sel : Selector} {operands : List Operand} {i : Instr}
    (h : decodeOperands p sel operands = some i) : encode i = .txn ⟨sel.op, operands⟩ := by
  unfold decodeOperands at h
  split at h
  case h_1 | h_6 | h_7 => injection h with h; subst h; rfl
  case h_2 b =>
    obtain ⟨hb, ⟨⟩⟩ := Option.ite_none_right_eq_some.1 h
    rw [encode, toNat_ofNat_of_fits hb]; rfl
  case h_3 | h_4 => obtain ⟨-, ⟨⟩⟩ := Option.ite_none_right_eq_some.1 h; rfl
  case h_5 n =>
    obtain ⟨hn, ⟨⟩⟩ := Option.ite_none_right_eq_some.1 h
    rw [encode, toInt_ofInt_of_fits hn]; rfl
  case h_8 ht q =>
    obtain ⟨hfits, ⟨⟩⟩ := Option.ite_none_right_eq_some.1 h
    rw [encode, toNat_ofNat_of_fits (Bool.and_eq_true_iff.1 hfits).1]; rfl
  case h_9 ht =>
    obtain ⟨hfits, ⟨⟩⟩ := Option.ite_none_right_eq_some.1 h
    rw [encode, toNat_ofNat_of_fits hfits]; rfl
  case h_10 => cases h

/-- So a transaction that decodes is its instruction's encoding. -/
theorem encode_of_decodeTxn {p : Params} {x : Txn} {i : Instr} (h : decodeTxn p x = .ok i) : encode i = .txn x := by
  unfold decodeTxn at h
  split at h
  · cases h
  · rename_i sel hsel
    split at h
    · rename_i hops
      injection h with h
      subst h
      rw [encode_of_decodeOperands hops, ← selectorOf_some hsel]
    · cases h

/-- What the record says of PULSE, TICK and RESET is what the instruction it decodes to is. -/
theorem kind_of_decodeTxn {p : Params} {x : Txn} {i : Instr} (h : decodeTxn p x = .ok i) :
    x.pulseStamp = i.pulseStamp ∧ x.tickCode = i.tickCode ∧ (x.op ≠ 0x00 → i ≠ .reset) := by
  have hx : encode i = .txn x := encode_of_decodeTxn h
  cases i <;> cases hx <;> simp [Txn.pulseStamp, Txn.tickCode, Instr.pulseStamp, Instr.tickCode]

/-- A reserved selector is that of no PULSE and of no TICK. -/
theorem kind_of_decodeTxn_reserved {p : Params} {x : Txn} {op : Byte} (h : decodeTxn p x = .error (.reserved op)) :
    x.pulseStamp = none ∧ x.tickCode = none := by
  have hsel : selectorOf x.op = none := by
    unfold decodeTxn at h
    split at h
    · assumption
    · split at h <;> cases h
  have hpulse : x.op ≠ 0x02 := fun e => by rw [e] at hsel; cases hsel
  have htick : x.op ≠ 0x03 := fun e => by rw [e] at hsel; cases hsel
  constructor
  · unfold Txn.pulseStamp; split <;> [exact if_neg hpulse; rfl]
  · unfold Txn.tickCode; split <;> [exact if_neg htick; rfl]

end Sys2Proof

/-! ### What a run without RESET does to the SAMPLER (40_sampler.md R71 to R73, R82) -/

namespace Sys2Proof
namespace Machine

theorem di_lt (s : State) : s.di.val < 10 := s.di.isLt

theorem pi_lt (s : State) : s.pi.val < 10 := s.pi.isLt

/-- How many WindReadings OUT holds. -/
abbrev readings (s : State) : Nat := s.out.countP Event.isReading

theorem readings_emit {ev : Event} (h : ev.isReading = false) (s : State) : readings (emit ev s) = readings s := by
  simp [readings, h]

theorem isReading_of_isDispatch {ev : Event} (h : ev.isDispatch = true) : ev.isReading = false := by
  cases ev with
  | reading _ _ => cases h
  | _ => rfl

/-- A sentence gives no reading. -/
theorem isReading_applyVerb (v : SentenceVerb) (talker : Talker) (fields : List Str) :
    (verdictEvent (applyVerb v talker fields)).isReading = false := by
  obtain ⟨ev, hok, hdispatch, -⟩ | ⟨code, herror, -⟩ := applyVerb_cases v talker fields
  · rw [hok]
    exact isReading_of_isDispatch hdispatch
  · rw [herror]; rfl

/-- Nor does a completed line. -/
theorem isReading_lineEvent (L : Str) : (lineEvent L).isReading = false := by
  obtain ⟨hdispatch, -⟩ | ⟨code, hreject, -⟩ := lineEvent_cases L
  · exact isReading_of_isDispatch hdispatch
  · rw [hreject]; rfl

theorem countP_isReading_overflowEvents (fb : Str) : (overflowEvents fb).countP Event.isReading = 0 := by
  unfold overflowEvents
  split <;> rfl

theorem countP_isReading_reportEvents (s : State) : (reportEvents s).countP Event.isReading = 1 := by
  unfold reportEvents
  split <;> rfl

/-- An instruction other than TICK emits no reading. -/
theorem readings_after_of_not_tick {i : Instr} (h : i.tickCode = none) (s : State) :
    readings (after i s) = readings s := by
  cases i with
  | tick code => cases h
  | rxByte b =>
    simp only [readings, after, List.countP_append]
    split
    · simp [isReading_lineEvent]
    · rw [countP_isReading_overflowEvents, Nat.add_zero]
  | mwv talker fields => exact readings_emit (isReading_applyVerb .mwv talker fields) s
  | vtg talker fields => exact readings_emit (isReading_applyVerb .vtg talker fields) s
  | dpt talker fields => exact readings_emit (isReading_applyVerb .dpt talker fields) s
  | reset | pulse _ | setCorr _ => rfl
  | getCorr | encode _ _ _ | emitMwv _ _ | emitHdm _ | hdm _ _ => exact readings_emit rfl s

/-- A TICK emits one when it advances DI from 9 (R73). -/
theorem readings_after_tick (code : Nat) (s : State) :
    readings (after (.tick code) s) = readings s + (s.di.val + 1) / 10 := by
  have := di_lt s
  simp only [readings, after, List.countP_append]
  by_cases hwrap : ringNext s.di = 0
  · have hval : (s.di.val + 1) % 10 = 0 := congrArg Fin.val hwrap
    rw [tickEvents_of_wrap hwrap, countP_isReading_reportEvents]
    omega
  · have hval : (s.di.val + 1) % 10 ≠ 0 := fun e => hwrap (Fin.ext e)
    rw [tickEvents_of_no_wrap hwrap, List.countP_nil]
    omega

theorem eq_tick_of_tickCode {i : Instr} {code : Nat} (h : i.tickCode = some code) : i = .tick code := by
  cases i with
  | tick _ => cases h; rfl
  | _ => cases h

/-- DI counts TICKs, so either case is one division. -/
theorem readings_after (i : Instr) (s : State) :
    readings (after i s) = readings s + (s.di.val + i.tickCode.toList.length) / 10 := by
  cases hcode : i.tickCode with
  | none =>
    rw [readings_after_of_not_tick hcode, Option.toList_none, List.length_nil, Nat.add_zero,
      Nat.div_eq_of_lt (di_lt s), Nat.add_zero]
  | some code => rw [eq_tick_of_tickCode hcode, readings_after_tick]; rfl

theorem di_after {i : Instr} (h : i ≠ .reset) (s : State) :
    (after i s).di.val = (s.di.val + i.tickCode.toList.length) % 10 := by
  cases i with
  | reset => exact absurd rfl h
  | tick code => rfl
  | _ => exact (Nat.mod_eq_of_lt s.di.isLt).symm

/-- What one transaction does to DI and to the number of readings. -/
theorem execTxn_ticks {x : Txn} {s t : State} (hx : x.op ≠ 0x00) (h : execTxn x s = .next t) :
    readings t = readings s + (s.di.val + x.tickCode.toList.length) / 10 ∧
      t.di.val = (s.di.val + x.tickCode.toList.length) % 10 := by
  obtain ⟨i, hdecode, rfl⟩ | ⟨op, hdecode, rfl⟩ := execTxn_next h
  · obtain ⟨-, hcode, hreset⟩ := kind_of_decodeTxn hdecode
    rw [hcode]
    exact ⟨readings_after i s, di_after (hreset hx) s⟩
  · obtain ⟨-, hcode⟩ := kind_of_decodeTxn_reserved hdecode
    have := di_lt s
    rw [readings_emit rfl, emit_di, hcode, Option.toList_none, List.length_nil]
    omega

/-! ### The pulse ring, oldest timestamp first (R77) -/

/-- PR read from the slot that PI names, which the next PULSE overwrites, round to the newest entry. -/
def timestamps (s : State) : List Nat := s.pr.toList.rotate s.pi.val

theorem timestamps_length (s : State) : (timestamps s).length = 10 := by simp [timestamps]

theorem timestamps_getD {k : Nat} (hk : k < 10) (s : State) :
    (timestamps s).getD k 0 = s.pr[(k + s.pi.val) % 10]'(Nat.mod_lt _ (by norm_num)) := by
  rw [List.getD_eq_getElem _ _ (by rwa [timestamps_length])]
  simp [timestamps, List.getElem_rotate]

theorem oldestPulse_eq_timestamps (s : State) : oldestPulse s = (timestamps s).getD 0 0 := by
  have hslot : (0 + s.pi.val) % 10 = s.pi.val := by have := pi_lt s; omega
  simp only [timestamps_getD (show 0 < 10 by norm_num), hslot]
  rfl

theorem newestPulse_eq_timestamps (s : State) : newestPulse s = (timestamps s).getD 9 0 := by
  have hslot : (9 + s.pi.val) % 10 = (s.pi.val + 10 - 1) % 10 := by omega
  simp only [timestamps_getD (show 9 < 10 by norm_num), hslot]
  rfl

/-- Overwriting the first entry of a rotation and turning it once more drops the entry and puts the new one last. -/
theorem rotate_set_succ {l : List Nat} {i : Nat} (h : i < l.length) (a : Nat) :
    (l.set i a).rotate (i + 1) = (l.rotate i).tail ++ [a] := by
  have hset : i < (l.set i a).length := by rwa [List.length_set]
  have hnew : (l.set i a).rotate (i + 1) = l.drop (i + 1) ++ (l.take i ++ [a]) := by
    rw [List.rotate_eq_drop_append_take hset, List.drop_set_of_lt (Nat.lt_succ_self i),
      List.take_succ_eq_append_getElem hset, List.take_set_of_le le_rfl, List.getElem_set_self]
  have hold : (l.rotate i).tail = l.drop (i + 1) ++ l.take i := by
    rw [List.rotate_eq_drop_append_take h.le, List.drop_eq_getElem_cons h, List.cons_append, List.tail_cons]
  rw [hnew, hold, List.append_assoc]

theorem timestamps_writePulse (ts : Nat) (s : State) : timestamps (writePulse ts s) = (timestamps s).tail ++ [ts] := by
  have hpi : s.pi.val < s.pr.toList.length := by simp
  calc timestamps (writePulse ts s)
      = (s.pr.toList.set s.pi.val ts).rotate ((s.pi.val + 1) % (s.pr.toList.set s.pi.val ts).length) := by
        simp [timestamps, ringNext, Vector.toList_set]
    _ = (timestamps s).tail ++ [ts] := by rw [List.rotate_mod, rotate_set_succ hpi, timestamps]

/-- A PULSE pushes its timestamp in; every other instruction but RESET leaves the ring. -/
theorem timestamps_after {i : Instr} (h : i ≠ .reset) (s : State) :
    timestamps (after i s) = (timestamps s ++ i.pulseStamp.toList).drop i.pulseStamp.toList.length := by
  cases i with
  | reset => exact absurd rfl h
  | pulse ts =>
    have hne : timestamps s ≠ [] := List.ne_nil_of_length_pos (by rw [timestamps_length]; norm_num)
    rw [after, timestamps_writePulse, ← List.tail_append_of_ne_nil hne, ← List.drop_one]
    rfl
  | _ => exact (List.append_nil (timestamps s)).symm

theorem execTxn_timestamps {x : Txn} {s t : State} (hx : x.op ≠ 0x00) (h : execTxn x s = .next t) :
    timestamps t = (timestamps s ++ x.pulseStamp.toList).drop x.pulseStamp.toList.length := by
  obtain ⟨i, hdecode, rfl⟩ | ⟨op, hdecode, rfl⟩ := execTxn_next h
  · obtain ⟨hstamp, -, hreset⟩ := kind_of_decodeTxn hdecode
    rw [hstamp, timestamps_after (hreset hx)]
  · obtain ⟨hstamp, -⟩ := kind_of_decodeTxn_reserved hdecode
    rw [hstamp]
    exact (List.append_nil (timestamps s)).symm

/-! ### Runs -/

/-- A run is its first transaction, then the rest. -/
theorem runTxns_cons {x : Txn} {l : List Txn} {s t : State} (h : runTxns (x :: l) s = .next t) :
    ∃ u, execTxn x s = .next u ∧ runTxns l u = .next t := by
  rw [runTxns] at h
  cases hx : execTxn x s with
  | next u => rw [hx] at h; exact ⟨u, rfl, h⟩
  | fault r => cases r
  | refused r => rw [hx] at h; cases h

/-- What a filter reads of a list is what it reads of the first element, then of the rest. -/
theorem filterMap_cons_toList (f : Txn → Option Nat) (x : Txn) (l : List Txn) :
    (x :: l).filterMap f = (f x).toList ++ l.filterMap f := by
  cases h : f x <;> simp [h]

/-- DI counts the TICKs of a run modulo ten, and there is one reading for each full ten (R73). -/
theorem runTxns_ticks {l : List Txn} {s t : State} (hl : ∀ x ∈ l, x.op ≠ 0x00) (h : runTxns l s = .next t) :
    readings t = readings s + (s.di.val + (l.filterMap Txn.tickCode).length) / 10 ∧
      t.di.val = (s.di.val + (l.filterMap Txn.tickCode).length) % 10 := by
  induction l generalizing s with
  | nil =>
    cases h
    have := di_lt t
    rw [List.filterMap_nil, List.length_nil]
    omega
  | cons x l ih =>
    obtain ⟨hop, hops⟩ := List.forall_mem_cons.1 hl
    obtain ⟨u, hx, hrest⟩ := runTxns_cons h
    obtain ⟨hreadings, hdi⟩ := execTxn_ticks hop hx
    obtain ⟨hreadings', hdi'⟩ := ih hops hrest
    rw [filterMap_cons_toList, List.length_append]
    omega

/-- The timestamps of a run's PULSEs push out as many of the oldest ones (R71, R82). -/
theorem runTxns_timestamps {l : List Txn} {s t : State} (hl : ∀ x ∈ l, x.op ≠ 0x00) (h : runTxns l s = .next t) :
    timestamps t = (timestamps s ++ l.filterMap Txn.pulseStamp).drop (l.filterMap Txn.pulseStamp).length := by
  induction l generalizing s with
  | nil => cases h; exact (List.append_nil (timestamps t)).symm
  | cons x l ih =>
    obtain ⟨hop, hops⟩ := List.forall_mem_cons.1 hl
    obtain ⟨u, hx, hrest⟩ := runTxns_cons h
    have hle : x.pulseStamp.toList.length ≤ (timestamps s ++ x.pulseStamp.toList).length := by
      rw [List.length_append]; omega
    rw [ih hops hrest, execTxn_timestamps hop hx, filterMap_cons_toList, List.length_append,
      ← List.drop_append_of_le_length hle, List.drop_drop, List.append_assoc]

/-- No transaction writes the configuration. -/
theorem runTxns_cfg {l : List Txn} {s t : State} (h : runTxns l s = .next t) : t.cfg = s.cfg := by
  induction l generalizing s with
  | nil => cases h; rfl
  | cons x l ih =>
    obtain ⟨u, hx, hrest⟩ := runTxns_cons h
    obtain ⟨-, -, hcfg⟩ := execTxn_own hx
    rw [ih hrest, hcfg]

/-- Settles O20: a reading is what a TICK from DI = 9 adds, and an induction along the run counts TICKs in DI. -/
theorem reportsComeOnEveryTenthTick : Obligations.ReportsComeOnEveryTenthTick := by
  unfold Obligations.ReportsComeOnEveryTenthTick
  refine ⟨fun i s t h => ?_, fun l s t => runTxns_ticks⟩
  obtain rfl : after i s = t := Host.Outcome.next.inj ((exec_eq_after i s).symm.trans h)
  change (readings (after i s) = readings s + 1 ↔ _) ∧ readings (after i s) ≤ readings s + 1
  have := di_lt s
  cases hcode : i.tickCode with
  | none =>
    have hsame : readings (after i s) = readings s := readings_after_of_not_tick hcode s
    have hnot : ¬∃ code, i = .tick code := by rintro ⟨code, rfl⟩; cases hcode
    simp [hsame, hnot]
  | some code =>
    obtain rfl : i = .tick code := eq_tick_of_tickCode hcode
    have hadd := readings_after_tick code s
    simp only [Instr.tick.injEq, exists_eq', true_and]
    omega

/-- The speed is computed from the oldest and the newest timestamp and the configuration. -/
theorem reportSpeed_congr {s t : State} (hcfg : t.cfg = s.cfg) (h : timestamps t = timestamps s) :
    reportSpeed t = reportSpeed s := by
  simp only [reportSpeed, pulseSpan, oldestPulse_eq_timestamps, newestPulse_eq_timestamps, hcfg, h]

/-- Once the first ten have been pushed out, the entries are those of the last ten pushed in. -/
theorem getD_drop_append {old new : List Nat} {k : Nat} (h : old.length ≤ new.length + k) :
    ((old ++ new).drop new.length).getD k 0 = new.getD (new.length + k - old.length) 0 := by
  simp only [List.getD_eq_getElem?_getD, List.getElem?_drop, List.getElem?_append_right h]

/-- Settles O22: the ring holds the last ten timestamps pushed in, and without a PULSE it is what it was. -/
theorem speedComesFromTheLastTenPulses : Obligations.SpeedComesFromTheLastTenPulses := by
  unfold Obligations.SpeedComesFromTheLastTenPulses
  intro l s t hl h
  have hring := runTxns_timestamps hl h
  constructor
  · intro hten
    rw [oldestPulse_eq_timestamps, newestPulse_eq_timestamps, hring,
      getD_drop_append (by rw [timestamps_length]; omega), getD_drop_append (by rw [timestamps_length]; omega),
      timestamps_length]
    exact ⟨rfl, rfl⟩
  · intro hnone
    rw [hnone, List.append_nil] at hring
    exact reportSpeed_congr (runTxns_cfg h) hring

end Machine
end Sys2Proof

/-! ### The ASSEMBLER (30_encoding.md R58, 41_assembler.md R84 to R89) -/

namespace Sys2Proof
open Machine

/-- HEX2 in the digits of `lowerHex`, the more significant first (R58). -/
theorem hex2_eq_lowerHex (x : Byte) :
    hex2 x = [lowerHex.getD (x.toNat / 16) 0, lowerHex.getD (x.toNat % 16) 0] := by
  have hhi : x.toNat / 16 < 16 := Nat.div_lt_of_lt_mul x.isLt
  have hlo : x.toNat % 16 < 16 := Nat.mod_lt _ (by norm_num)
  rw [hex2, hexDigit_eq_lowerHex ⟨_, hhi⟩, hexDigit_eq_lowerHex ⟨_, hlo⟩]

namespace Machine

/-- Settles O27: the content's join is the library's, its checksum the exclusive or from either end, and HEX2 the digits
of `lowerHex`. -/
theorem encodeEmitsTheAssembledSentence : Obligations.EncodeEmitsTheAssembledSentence := by
  unfold Obligations.EncodeEmitsTheAssembledSentence
  rintro s talker verb fields content rfl
  rw [exec_eq_after, after, encodeOut, join_eq_intercalate, wrapLine, hex2_eq_lowerHex, xsum_eq_xorAll]
  simp [emit, Talker.bytes, VerbBytes.bytes]

/-- FMT_T with the library's decimal digits (R86, R87). -/
theorem fmtTenths_eq_toDigits (t : Nat) :
    fmtTenths t = (Nat.toDigits 10 (t / 10)).map (fun c => BitVec.ofNat 8 c.toNat) ++
      [Chr.dot, BitVec.ofNat 8 (0x30 + t % 10)] := by
  rw [fmtTenths, dec, decDigits_eq_toDigits _ _ le_rfl, digitByte]

/-- A natural number is half-way between no two integers, so ROUND keeps it under either tie rule (R75). -/
theorem roundQ_natCast (ties : RoundTies) (t : Nat) : roundQ ties t = t := by
  obtain ⟨hnear, -⟩ := roundQ_nearest ties t t.cast_nonneg
  have hdist : |(roundQ ties t : Int) - t| < 1 := by
    exact_mod_cast hnear.trans_lt (by norm_num : (1 / 2 : Rat) < 1)
  rw [Int.abs_lt_one_iff] at hdist
  omega

/-- FMT1 of a number of tenths is FMT_T of them (R87). -/
theorem fmt1_tenths (ties : RoundTies) (t : Nat) : fmt1 ties ((t : Rat) / 10) = fmtTenths t := by
  rw [fmt1, div_mul_cancel₀ _ (by norm_num : (10 : Rat) ≠ 0), roundQ_natCast]

/-- Settles O28: FMT1 is FMT_T of ROUND, and ROUND is the nearest integer. -/
theorem formattedNumberIsTheNearestTenth : Obligations.FormattedNumberIsTheNearestTenth := by
  unfold Obligations.FormattedNumberIsTheNearestTenth
  intro ties q hq
  exact ⟨roundQ ties (q * 10), roundQ_nearest ties _ (mul_nonneg hq (by norm_num)), fmtTenths_eq_toDigits _⟩

/-- Settles O29: a number of tenths is a natural number after FMT1's scaling by 10, which ROUND keeps. -/
theorem tenthsFormatIsExact : Obligations.TenthsFormatIsExact := by
  unfold Obligations.TenthsFormatIsExact
  exact ⟨fmtTenths_eq_toDigits, fun ties t => (fmt1_tenths ties t).symm, by decide, by decide, by decide⟩

/-- The bytes of the text "II", of the key of MWV and of the unit and status letters (R88). -/
theorem mwvSentence_eq_encodeOut (ties : RoundTies) (headingTenths : Nat) (speed : Rat) :
    mwvSentence ties headingTenths speed = encodeOut ⟨0x49, 0x49⟩ ⟨0x4D, 0x57, 0x56⟩
      [fmtTenths headingTenths, [0x52], fmt1 ties speed, [0x4E], [0x41]] := rfl

/-- The bytes of the text "II", of the key of HDM and of the letter after the heading (R89). -/
theorem hdmSentence_eq_encodeOut (headingTenths : Nat) :
    hdmSentence headingTenths = encodeOut ⟨0x49, 0x49⟩ ⟨0x48, 0x44, 0x4D⟩ [fmtTenths headingTenths, [0x4D]] := rfl

/-- Settles O31: EMIT_MWV emits `mwvSentence`, whose bytes are ENCODE's of the five fields. -/
theorem emitMwvEmitsTheWindSentence : Obligations.EmitMwvEmitsTheWindSentence := by
  unfold Obligations.EmitMwvEmitsTheWindSentence
  intro s h q
  have hexec : exec (.emitMwv h q) s = .next (emit (.tx (mwvSentence s.cfg.roundTies h.toNat q)) s) := exec_eq_after _ s
  exact ⟨by rw [hexec, mwvSentence_eq_encodeOut, exec_eq_after, after], hexec⟩

/-- Settles O32: EMIT_HDM emits `hdmSentence`, whose bytes are ENCODE's of the two fields. -/
theorem emitHdmEmitsTheHeadingSentence : Obligations.EmitHdmEmitsTheHeadingSentence := by
  unfold Obligations.EmitHdmEmitsTheHeadingSentence
  intro s h
  have hexec : exec (.emitHdm h) s = .next (emit (.tx (hdmSentence h.toNat)) s) := exec_eq_after _ s
  exact ⟨by rw [hexec, hdmSentence_eq_encodeOut, exec_eq_after, after], hexec⟩

end Machine
end Sys2Proof

/-! ### Framing (42_parser_framing.md R93, R94, R98) -/

namespace Sys2Proof
namespace Machine

theorem length_rtake (l : Str) (n : Nat) : (l.rtake n).length = min n l.length := by
  rw [List.rtake, List.length_drop]
  omega

theorem rtake_of_length_le {l : Str} {n : Nat} (h : l.length ≤ n) : l.rtake n = l := by
  rw [List.rtake, Nat.sub_eq_zero_of_le h, List.drop_zero]

theorem tail_rtake_succ {l : Str} {n : Nat} (h : n < l.length) : (l.rtake (n + 1)).tail = l.rtake n := by
  rw [List.rtake, List.rtake, List.tail_drop, show l.length - (n + 1) + 1 = l.length - n by omega]

/-- FB is full when the line so far has FRAME_CAP bytes or more. -/
theorem length_rtake_frameCap (bytes : Str) :
    (bytes.rtake Config.frameCap).length = Config.frameCap ↔ Config.frameCap ≤ bytes.length := by
  rw [length_rtake, min_eq_left_iff]

/-- The events of `n` bytes discarded (R93). -/
def overflows (n : Nat) : List Event := List.replicate n (.reject .framingOverflow)

/-- When FB is the latest bytes of a line so far, it is again after one byte more (R93). -/
theorem frameWith_rtake (b : Byte) (bytes : Str) :
    frameWith b (bytes.rtake Config.frameCap) = (bytes ++ [b]).rtake Config.frameCap := by
  rw [List.rtake_concat_succ, frameWith]
  by_cases hfull : Config.frameCap ≤ bytes.length
  · rw [if_pos ((length_rtake_frameCap bytes).2 hfull), tail_rtake_succ hfull]
  · have hroom : bytes.length < Config.frameCap := Nat.lt_of_not_le hfull
    rw [if_neg (mt (length_rtake_frameCap bytes).1 hfull), rtake_of_length_le hroom.le,
      rtake_of_length_le (Nat.le_of_lt_succ hroom)]

/-- That byte discards one byte more when FB is full. -/
theorem overflows_concat (b : Byte) (bytes : Str) :
    overflows ((bytes ++ [b]).length - Config.frameCap) =
      overflows (bytes.length - Config.frameCap) ++ overflowEvents (bytes.rtake Config.frameCap) := by
  rw [overflowEvents, List.length_append, List.length_singleton]
  by_cases hfull : Config.frameCap ≤ bytes.length
  · rw [if_pos ((length_rtake_frameCap bytes).2 hfull), Nat.sub_add_comm hfull]
    exact List.replicate_succ'
  · have hroom : bytes.length < Config.frameCap := Nat.lt_of_not_le hfull
    rw [if_neg (mt (length_rtake_frameCap bytes).1 hfull), Nat.sub_eq_zero_of_le hroom, Nat.sub_eq_zero_of_le hroom.le]
    rfl

theorem feeds_other {b : Byte} (hb : b ≠ Chr.lf) (fb : Str) : Feeds [b] fb (frameWith b fb) (overflowEvents fb) := by
  rintro s rfl
  rw [runTxns_rxChunk_cons, after, if_neg hb, if_neg hb]
  rfl

/-- Bytes without an LF, from an FB within its capacity: by induction from the chunk's end, since FB is each time the latest
bytes of what came before (R93). -/
theorem feeds_of_lacks_lf {c fb : Str} (hc : lacks Chr.lf c = true) (hfb : fb.length ≤ Config.frameCap) :
    Feeds c fb ((fb ++ c).rtake Config.frameCap) (overflows ((fb ++ c).length - Config.frameCap)) := by
  induction c using List.reverseRecOn with
  | nil =>
    rw [List.append_nil, rtake_of_length_le hfb, Nat.sub_eq_zero_of_le hfb]
    exact feeds_nil fb
  | append_singleton c b ih =>
    obtain ⟨hc, hb⟩ := (lacks_append _ _ _).1 hc
    rw [← List.append_assoc, ← frameWith_rtake, overflows_concat]
    exact (ih hc).append (feeds_other ((lacks_cons _ _ _).1 hb).1 _)

/-- Settles O33: the chunk leaves the latest 1024 bytes, `List.rtake 1024`, and an overflow for each one before them. -/
theorem frameHoldsTheLatestBytesSinceTheLastLf : Obligations.FrameHoldsTheLatestBytesSinceTheLastLf := by
  unfold Obligations.FrameHoldsTheLatestBytesSinceTheLastLf
  intro s chunk hchunk hfb
  exact feeds_of_lacks_lf hchunk hfb s rfl

theorem completedLine_concat_cr (L : Str) : completedLine (L ++ [Chr.cr]) = L := by
  rw [completedLine, if_pos List.getLast?_concat, List.dropLast_concat]

theorem completedLine_of_no_cr {fb : Str} (h : fb.getLast? ≠ some Chr.cr) : completedLine fb = fb := if_neg h

theorem exec_rxByte_lf (s : State) : exec (.rxByte Chr.lf) s = processLine (completedLine s.fb) { s with fb := [] } := by
  show execRxByte Chr.lf s = _
  exact if_pos rfl

/-- Settles O35: FB is emptied before the line without its CR is processed, and the empty line fails the length check. -/
theorem lineFeedEndsTheLine : Obligations.LineFeedEndsTheLine := by
  unfold Obligations.LineFeedEndsTheLine
  refine ⟨fun s L hfb => ?_, fun s hfb => ?_, fun s hfb => ?_⟩
  · rw [exec_rxByte_lf, hfb, completedLine_concat_cr]
  · rw [exec_rxByte_lf, completedLine_of_no_cr hfb]
  · have hempty : completedLine s.fb = [] := by rcases hfb with h | h <;> rw [h] <;> rfl
    rw [exec_rxByte_lf, hempty]
    exact processLine_err rfl _

/-- Bytes without an LF and then the LF, from the empty FB: the latest of them are the line (R94, R98). -/
theorem runTxns_line {s : State} {c : Str} (hs : s.fb = []) (hc : lacks Chr.lf c = true) :
    runTxns (rxChunk (c ++ [Chr.lf])) s =
      processLine (completedLine (c.rtake Config.frameCap))
        { s with out := s.out ++ overflows (c.length - Config.frameCap) } := by
  have hline := (feeds_of_lacks_lf (fb := []) hc (Nat.zero_le _)).append (feeds_lf _)
  rw [hline.runTxns_of_fb_eq hs, processLine_eq, emit, List.nil_append, List.append_assoc]

/-- A line of at least MIN_LINE bytes that does not begin with `$` (R101). -/
theorem decodeSentence_of_no_dollar {L : Str} (hlen : Config.minLine ≤ L.length) (h : L.head? ≠ some Chr.dollar) :
    decodeSentence L = .error .badPrefix := by
  have hfirst : byteAt L 0 ≠ Chr.dollar := by
    cases L with
    | nil => exact absurd hlen (by decide)
    | cons b L => exact fun hb => h (congrArg some hb)
  rw [decodeSentence, if_neg (Nat.not_lt.2 hlen), if_pos hfirst]

/-- Settles O39: the CR of a CR LF takes one of FB's 1024 places, so 1023 are left for the line; what is left of a cut line
has 1023 or 1024 bytes, so the length check does not reject it. -/
theorem longestLineDeliveredWhole : Obligations.LongestLineDeliveredWhole := by
  unfold Obligations.LongestLineDeliveredWhole
  intro s L hs hL
  have hcut {d : Nat} (hd : d + 10 ≤ L.length) (h : (L.drop d).head? ≠ some Chr.dollar) (u : State) :
      processLine (L.drop d) u = rejected .badPrefix u :=
    processLine_err (decodeSentence_of_no_dollar (by rw [List.length_drop]; exact Nat.le_sub_of_add_le' hd) h) u
  refine ⟨?_, fun hcr => ?_, fun hlong => hcut (by omega), fun hlong => hcut (by omega)⟩
  · have hcrlf : lacks Chr.lf (L ++ [Chr.cr]) = true := (lacks_append _ _ _).2 ⟨hL, rfl⟩
    have hsentence : rxSentence L = rxChunk (L ++ [Chr.cr] ++ [Chr.lf]) := by rw [List.append_assoc]; rfl
    rw [hsentence, runTxns_line hs hcrlf, List.rtake_concat_succ, completedLine_concat_cr, List.length_append,
      List.length_singleton, List.rtake, Nat.add_sub_add_right L.length 1 1023]
    rfl
  · have hlast : (L.rtake Config.frameCap).getLast? ≠ some Chr.cr := by
      rw [List.rtake, List.getLast?_drop]
      split
      · exact nofun
      · exact hcr
    rw [runTxns_line hs hL, completedLine_of_no_cr hlast]
    rfl

end Machine
end Sys2Proof

/-! ### One event for each line (43_parser_sentence.md R110) -/

namespace Sys2Proof
namespace Machine

/-- Settles O42: the event is `lineEvent`, computed from the line alone. -/
theorem processLineEmitsExactlyOneEvent : Obligations.ProcessLineEmitsExactlyOneEvent := by
  unfold Obligations.ProcessLineEmitsExactlyOneEvent
  intro L
  refine ⟨lineEvent L, ?_, processLine_eq L⟩
  obtain ⟨hdispatch, -⟩ | ⟨code, hreject, -⟩ := lineEvent_cases L
  · exact .inl hdispatch
  · exact .inr ⟨code, hreject⟩

end Machine
end Sys2Proof

/-! ### The verb parsers, by the first field that fails (43_parser_sentence.md R107 to R109) -/

namespace Sys2Proof
namespace Machine

/-- A sentence concludes its parser's verdict (R106, R110). -/
theorem exec_mwv (talker : Talker) (fields : List Str) (s : State) :
    exec (.mwv talker fields) s = .next (conclude (parseMwv talker fields) s) := rfl

theorem exec_vtg (talker : Talker) (fields : List Str) (s : State) :
    exec (.vtg talker fields) s = .next (conclude (parseVtg talker fields) s) := rfl

theorem exec_dpt (talker : Talker) (fields : List Str) (s : State) :
    exec (.dpt talker fields) s = .next (conclude (parseDpt talker fields) s) := rfl

theorem next_conclude_error (code : RejectCode) (s : State) : .next (conclude (.error code) s) = rejected code s := rfl

theorem next_conclude_ok (ev : Event) (s : State) :
    (.next (conclude (.ok ev) s) : Host.Outcome State Fault Refusal) = .next { s with out := s.out ++ [ev] } := rfl

theorem unitFactor_of_unit {unit : Str} {k : Rat}
    (h : (unit = ascii "M" ∧ k = 868976242 / 1000000000) ∨ (unit = ascii "K" ∧ k = 539956803 / 1000000000) ∨
      (unit = ascii "N" ∧ k = 1)) : unitFactor unit = some k := by
  obtain ⟨rfl, rfl⟩ | ⟨rfl, rfl⟩ | ⟨rfl, rfl⟩ := h <;> rfl

theorem unitFactor_of_other {unit : Str} (hM : unit ≠ ascii "M") (hK : unit ≠ ascii "K") (hN : unit ≠ ascii "N") :
    unitFactor unit = none := by
  rw [unitFactor, if_neg hM, if_neg hK, if_neg hN]

section Mwv
variable {talker : Talker} {fields : List Str} {angle v : NumText}

theorem parseMwv_of_length_ne (hlen : fields.length ≠ 6) : parseMwv talker fields = .error .fieldCount := if_pos hlen

theorem parseMwv_of_no_angle (hlen : fields.length = 6) (hangle : numField fields 1 = none) :
    parseMwv talker fields = .error .malformedNumeric := by
  rw [parseMwv, if_neg (not_not.2 hlen), hangle]

theorem parseMwv_of_no_speed (hlen : fields.length = 6) (hangle : numField fields 1 ≠ none)
    (hspeed : numField fields 3 = none) : parseMwv talker fields = .error .malformedNumeric := by
  obtain ⟨angle, hangle⟩ := Option.ne_none_iff_exists'.1 hangle
  simp only [parseMwv, if_neg (not_not.2 hlen), hangle, hspeed]

theorem parseMwv_of_no_unit (hlen : fields.length = 6) (hangle : numField fields 1 ≠ none)
    (hspeed : numField fields 3 ≠ none) (hunit : unitFactor (fields.getD 4 []) = none) :
    parseMwv talker fields = .error .badUnit := by
  obtain ⟨angle, hangle⟩ := Option.ne_none_iff_exists'.1 hangle
  obtain ⟨v, hspeed⟩ := Option.ne_none_iff_exists'.1 hspeed
  simp only [parseMwv, if_neg (not_not.2 hlen), hangle, hspeed, hunit]

theorem parseMwv_of_fields {k : Rat} (hlen : fields.length = 6) (hangle : numField fields 1 = some angle)
    (hspeed : numField fields 3 = some v) (hunit : unitFactor (fields.getD 4 []) = some k) :
    parseMwv talker fields = .ok (.wind talker angle.trunc (v.value * k)) := by
  simp only [parseMwv, if_neg (not_not.2 hlen), hangle, hspeed, hunit]

end Mwv

/-- Settles O46: each clause is one case of `parseMwv`, reached when the checks before it pass. -/
theorem mwvSentenceIsParsed : Obligations.MwvSentenceIsParsed := by
  unfold Obligations.MwvSentenceIsParsed
  intro s talker fields
  rw [exec_mwv]
  refine ⟨fun hlen => by rw [parseMwv_of_length_ne hlen, next_conclude_error], ?_⟩
  intro f0 f1 f2 f3 f4 f5 hfields
  obtain ⟨hlen, h1, h3, h4⟩ : fields.length = 6 ∧ numField fields 1 = parseNum f1 ∧ numField fields 3 = parseNum f3 ∧
      fields.getD 4 [] = f4 := by
    rw [hfields]
    exact ⟨rfl, rfl, rfl, rfl⟩
  rw [← h1, ← h3, ← h4]
  refine ⟨fun hangle => ?_, fun hangle hspeed => ?_, fun hangle hspeed hM hK hN => ?_, fun angle v hangle hspeed k hunit => ?_⟩
  · rw [parseMwv_of_no_angle hlen hangle, next_conclude_error]
  · rw [parseMwv_of_no_speed hlen hangle hspeed, next_conclude_error]
  · rw [parseMwv_of_no_unit hlen hangle hspeed (unitFactor_of_other hM hK hN), next_conclude_error]
  · rw [parseMwv_of_fields hlen hangle hspeed (unitFactor_of_unit hunit), next_conclude_ok]

section Course
variable {fields : List Str} {i : Nat} {n : NumText}

theorem courseField_of_no_number (h : numField fields i = none) : courseField fields i = .error .malformedNumeric := by
  rw [courseField, h]

/-- The parser tests for a number outside [0, 360], the rule for one inside. -/
theorem course_outside_iff (q : Rat) : (q < 0 ∨ 360 < q) ↔ ¬(0 ≤ q ∧ q ≤ 360) := by
  rw [not_and_or, not_le, not_le]

theorem courseField_of_outside (h : numField fields i = some n) (hn : ¬(0 ≤ n.value ∧ n.value ≤ 360)) :
    courseField fields i = .error .outOfRange := by
  simp only [courseField, h, if_pos ((course_outside_iff _).2 hn)]

theorem courseField_of_inside (h : numField fields i = some n) (h0 : 0 ≤ n.value) (h360 : n.value ≤ 360) :
    courseField fields i = .ok n.value := by
  simp only [courseField, h, if_neg (mt (course_outside_iff _).1 (not_not.2 ⟨h0, h360⟩))]

end Course

section Vtg
variable {talker : Talker} {fields : List Str} {code : RejectCode} {trueCourse magCourse : Rat}

theorem parseVtg_of_length_lt (hlen : fields.length < 6) : parseVtg talker fields = .error .fieldCount := if_pos hlen

theorem parseVtg_of_true_course_error (hlen : 6 ≤ fields.length) (htrue : courseField fields 1 = .error code) :
    parseVtg talker fields = .error code := by
  rw [parseVtg, if_neg (Nat.not_lt.2 hlen), htrue]

theorem parseVtg_of_mag_course_error (hlen : 6 ≤ fields.length) (htrue : courseField fields 1 = .ok trueCourse)
    (hmag : courseField fields 3 = .error code) : parseVtg talker fields = .error code := by
  simp only [parseVtg, if_neg (Nat.not_lt.2 hlen), htrue, hmag]

theorem parseVtg_of_no_speed (hlen : 6 ≤ fields.length) (htrue : courseField fields 1 = .ok trueCourse)
    (hmag : courseField fields 3 = .ok magCourse) (hspeed : numField fields 5 = none) :
    parseVtg talker fields = .error .malformedNumeric := by
  simp only [parseVtg, if_neg (Nat.not_lt.2 hlen), htrue, hmag, hspeed]

theorem parseVtg_of_fields {sog : NumText} (hlen : 6 ≤ fields.length) (htrue : courseField fields 1 = .ok trueCourse)
    (hmag : courseField fields 3 = .ok magCourse) (hspeed : numField fields 5 = some sog) :
    parseVtg talker fields = .ok (.cogsog talker trueCourse magCourse sog.value) := by
  simp only [parseVtg, if_neg (Nat.not_lt.2 hlen), htrue, hmag, hspeed]

end Vtg

/-- Settles O47: the true course, the magnetic course and the speed in turn, each read when those before it are accepted. -/
theorem vtgSentenceIsParsed : Obligations.VtgSentenceIsParsed := by
  unfold Obligations.VtgSentenceIsParsed
  intro s talker fields
  rw [exec_vtg]
  refine ⟨fun hlen => by rw [parseVtg_of_length_lt hlen, next_conclude_error], ?_⟩
  intro f0 f1 f2 f3 f4 f5 more hfields
  obtain ⟨hlen, h1, h3, h5⟩ : 6 ≤ fields.length ∧ numField fields 1 = parseNum f1 ∧ numField fields 3 = parseNum f3 ∧
      numField fields 5 = parseNum f5 := by
    rw [hfields]
    exact ⟨Nat.le_add_left 6 more.length, rfl, rfl, rfl⟩
  rw [← h1, ← h3, ← h5]
  refine ⟨fun h => ?_, fun tc htc => ⟨fun hrange => ?_, fun h0 h360 => ?_⟩⟩
  · rw [parseVtg_of_true_course_error hlen (courseField_of_no_number h), next_conclude_error]
  · rw [parseVtg_of_true_course_error hlen (courseField_of_outside htc hrange), next_conclude_error]
  have htrue := courseField_of_inside htc h0 h360
  refine ⟨fun h => ?_, fun mc hmc => ⟨fun hrange => ?_, fun h0 h360 => ?_⟩⟩
  · rw [parseVtg_of_mag_course_error hlen htrue (courseField_of_no_number h), next_conclude_error]
  · rw [parseVtg_of_mag_course_error hlen htrue (courseField_of_outside hmc hrange), next_conclude_error]
  have hmag := courseField_of_inside hmc h0 h360
  refine ⟨fun h => ?_, fun sog hsog => ?_⟩
  · rw [parseVtg_of_no_speed hlen htrue hmag h, next_conclude_error]
  · rw [parseVtg_of_fields hlen htrue hmag hsog, next_conclude_ok]

section Dpt
variable {talker : Talker} {fields : List Str}

theorem parseDpt_of_length_lt (hlen : fields.length < 2) : parseDpt talker fields = .error .fieldCount := if_pos hlen

theorem parseDpt_of_no_depth (hlen : 2 ≤ fields.length) (hdepth : numField fields 1 = none) :
    parseDpt talker fields = .error .malformedNumeric := by
  rw [parseDpt, if_neg (Nat.not_lt.2 hlen), hdepth]

theorem parseDpt_of_depth {d : NumText} (hlen : 2 ≤ fields.length) (hdepth : numField fields 1 = some d) :
    parseDpt talker fields = .ok (.depth talker d.value 0) := by
  rw [parseDpt, if_neg (Nat.not_lt.2 hlen), hdepth]

end Dpt

/-- Settles O48: `parseDpt` reads the field count and the depth, and no field after it. -/
theorem dptSentenceIsParsed : Obligations.DptSentenceIsParsed := by
  unfold Obligations.DptSentenceIsParsed
  intro s talker fields
  rw [exec_dpt]
  refine ⟨fun hlen => by rw [parseDpt_of_length_lt hlen, next_conclude_error], ?_⟩
  rintro f0 f1 more rfl
  have hlen : 2 ≤ (f0 :: f1 :: more).length := Nat.le_add_left 2 more.length
  refine ⟨fun hdepth => ?_, fun d hdepth => ?_⟩
  · rw [parseDpt_of_no_depth hlen hdepth, next_conclude_error]
  · rw [parseDpt_of_depth hlen hdepth, next_conclude_ok]

end Machine
end Sys2Proof

/-! ### The checks of PROCESS_LINE in their order, and REG (43_parser_sentence.md R99 to R106) -/

namespace Sys2Proof
open Machine

theorem VerbBytes.bytes_injective : Function.Injective VerbBytes.bytes := by
  rintro ⟨a, b, c⟩ ⟨d, e, f⟩ h
  simpa [VerbBytes.bytes] using h

theorem Talker.bytes_injective : Function.Injective Talker.bytes := by
  rintro ⟨a, b⟩ ⟨c, d⟩ h
  simpa [Talker.bytes] using h

theorem verbOf_of_bytes {v : VerbBytes} {w : SentenceVerb} (h : v.bytes = (verbBytesOfKey w.key).bytes) :
    verbOf v = some w := by
  rw [VerbBytes.bytes_injective h, verbOf_key]

/-- Outside REG the verb map has HDM alone (R65). -/
theorem verbOf_of_not_mem_registryKeys {v : VerbBytes} (h : v.bytes ∉ registryKeys) :
    verbOf v = none ∨ verbOf v = some .hdm := by
  cases hv : verbOf v with
  | none => exact .inl rfl
  | some w =>
    rw [verbOf_bytes hv] at h
    cases w with
    | mwv => exact absurd (by decide) h
    | vtg => exact absurd (by decide) h
    | dpt => exact absurd (by decide) h
    | hdm => exact .inr rfl

section Checks
variable {L : Str}

theorem decodeSentence_of_short (hshort : L.length < Config.minLine) : decodeSentence L = .error .badLength := if_pos hshort

theorem byteAt_zero_of_head? {b : Byte} (h : L.head? = some b) : byteAt L 0 = b := by
  obtain ⟨rest, rfl⟩ := List.head?_eq_some_iff.1 h
  rfl

variable (hlen : Config.minLine ≤ L.length) (hfirst : L.head? = some Chr.dollar)
include hlen hfirst

theorem decodeSentence_of_no_suffix (hfield : checksumField L = none) : decodeSentence L = .error .badSuffix := by
  rw [decodeSentence, if_neg (Nat.not_lt.2 hlen), if_neg (not_not.2 (byteAt_zero_of_head? hfirst)), hfield]

theorem decodeSentence_of_checksum_ne {h : Byte} (hfield : checksumField L = some h) (hsum : xsum (checksumRegion L) ≠ h) :
    decodeSentence L = .error .checksumMismatch := by
  simp only [decodeSentence, if_neg (Nat.not_lt.2 hlen), if_neg (not_not.2 (byteAt_zero_of_head? hfirst)), hfield,
    if_pos hsum]

theorem decodeSentence_of_no_verb (hsum : checksumField L = some (xsum (checksumRegion L)))
    (hverb : verbOf (lineVerb L) = none) : decodeSentence L = .error .unknownVerb := by
  simp only [decodeSentence, if_neg (Nat.not_lt.2 hlen), if_neg (not_not.2 (byteAt_zero_of_head? hfirst)), hsum,
    if_neg (not_not.2 rfl), hverb]

theorem decodeSentence_of_verb {v : SentenceVerb} (hsum : checksumField L = some (xsum (checksumRegion L)))
    (hverb : verbOf (lineVerb L) = some v) : decodeSentence L = .ok ⟨v, lineTalker L, split (lineBody L)⟩ := by
  simp only [decodeSentence, if_neg (Nat.not_lt.2 hlen), if_neg (not_not.2 (byteAt_zero_of_head? hfirst)), hsum,
    if_neg (not_not.2 rfl), hverb]

/-- A verb that is no key of REG is UNKNOWN_VERB: in the decoder when the verb map lacks it, and when it runs for HDM. -/
theorem processLine_of_unregistered (hsum : checksumField L = some (xsum (checksumRegion L)))
    (hverb : (lineVerb L).bytes ∉ registryKeys) (s : State) : processLine L s = rejected .unknownVerb s := by
  obtain hnone | hhdm := verbOf_of_not_mem_registryKeys hverb
  · exact processLine_err (decodeSentence_of_no_verb hlen hfirst hsum hnone) s
  · rw [processLine_of_decode (decodeSentence_of_verb hlen hfirst hsum hhdm)]
    rfl

/-- A line that passes every check runs the sentence of its verb. -/
theorem processLine_of_verb {v : SentenceVerb} {talker : Talker} (hsum : checksumField L = some (xsum (checksumRegion L)))
    (htalker : talker.bytes = (lineTalker L).bytes) (hverb : (lineVerb L).bytes = (verbBytesOfKey v.key).bytes) (s : State) :
    processLine L s = exec (Sentence.toInstr ⟨v, talker, split (lineBody L)⟩) s := by
  rw [Talker.bytes_injective htalker]
  exact processLine_of_decode (decodeSentence_of_verb hlen hfirst hsum (verbOf_of_bytes hverb)) s

end Checks

/-- Settles O41: each failing check is one case of `decodeSentence`, and the two digits spell the byte it compares. -/
theorem lineIsCheckedInOrderAndDispatched : Obligations.LineIsCheckedInOrderAndDispatched := by
  unfold Obligations.LineIsCheckedInOrderAndDispatched
  rintro s L n rfl
  refine ⟨fun hshort => processLine_err (decodeSentence_of_short hshort) s,
    fun hlen hfirst => processLine_err (decodeSentence_of_no_dollar hlen hfirst) s,
    fun hlen hfirst hsuffix => processLine_err (decodeSentence_of_no_suffix hlen hfirst (checksumField_none hlen hsuffix)) s,
    ?_⟩
  intro hi lo hlen hfirst hstar hhi hlo
  obtain ⟨a, -, ha⟩ := Option.bind_eq_some_iff.1 hhi
  obtain ⟨b, -, hb⟩ := Option.bind_eq_some_iff.1 hlo
  have hfield := checksumField_some hlen hstar hhi hlo
  obtain ⟨hverb, htalker⟩ := verb_talker_slices hlen
  rw [← checksumRegion_eq, ← xsum_eq_xorAll, ← lineBody_eq, hverb, htalker, ← toNat_ofNat_hexval ha hb]
  refine ⟨fun hsum => ?_, fun hsum => ?_⟩
  · exact processLine_err (decodeSentence_of_checksum_ne hlen hfirst hfield (mt (congrArg BitVec.toNat) hsum)) s
  · rw [← BitVec.eq_of_toNat_eq hsum] at hfield
    refine ⟨fun hnone => processLine_of_unregistered hlen hfirst hfield hnone s, fun talker ht => ⟨?_, ?_, ?_⟩⟩
    · exact fun hmwv => processLine_of_verb (v := .mwv) hlen hfirst hfield ht hmwv s
    · exact fun hvtg => processLine_of_verb (v := .vtg) hlen hfirst hfield ht hvtg s
    · exact fun hdpt => processLine_of_verb (v := .dpt) hlen hfirst hfield ht hdpt s

end Sys2Proof

/-! ### RESET and power-on (70_reset_and_hazards.md R129, R130) -/

namespace Sys2Proof
namespace Machine

/-- The record S after RESET does not depend on the state before it. -/
theorem resetBlock_block (s : State) : (resetBlock s).block = State.reset.block := rfl

/-- RESET writes the six parts of S and nothing else: with them put back, the state is as it was. -/
theorem resetBlock_frame (s : State) :
    { resetBlock s with fb := s.fb, dr := s.dr, di := s.di, pr := s.pr, pi := s.pi, corr := s.corr } = s := rfl

/-- Every slot of a ring at its reset value reads 0. -/
theorem getElem_emptyRing (j : Fin Config.ringSize) : (Vector.replicate Config.ringSize (0 : Nat))[j] = 0 :=
  Vector.getElem_replicate j.isLt

/-- Settles O1: the state is `resetBlock s`, and each part of S is at the value that its field lemma names. -/
theorem resetPutsTheBlockInItsInitialState : Obligations.ResetPutsTheBlockInItsInitialState := by
  unfold Obligations.ResetPutsTheBlockInItsInitialState
  intro s
  have hcorr : (resetBlock s).corr.toNat = 0 := by rw [resetBlock_corr]; rfl
  refine ⟨resetBlock s, exec_eq_after .reset s, resetBlock_fb s, fun j => ?dr, ?di, fun j => ?pr, ?pi, hcorr,
    resetBlock_frame s, ?getCorr⟩
  case dr => rw [resetBlock_dr]; exact getElem_emptyRing j
  case di => rw [resetBlock_di]; rfl
  case pr => rw [resetBlock_pr]; exact getElem_emptyRing j
  case pi => rw [resetBlock_pi]; rfl
  case getCorr => rw [getCorrEmitsTheCorrection, hcorr, resetBlock_out]

/-- Settles O2: RESET answers `resetBlock s`, whose record S is the one at power-on. -/
theorem powerOnIsTheStateResetGives : Obligations.PowerOnIsTheStateResetGives := by
  unfold Obligations.PowerOnIsTheStateResetGives
  refine ⟨fun s t hreset => ?_, rfl⟩
  rw [exec_eq_after] at hreset
  obtain rfl : resetBlock s = t := Host.Outcome.next.inj hreset
  exact resetBlock_block s

end Machine
end Sys2Proof

/-! ### The two encodings (30_encoding.md sections 1 to 5) -/

namespace Sys2Proof
open Machine

theorem selectorOf_op (sel : Selector) : selectorOf sel.op = some sel := by cases sel <;> rfl

/-- Operands of a selector's types make a transaction that decodes. -/
theorem decode_txn_of_decodeOperands {p : Params} {sel : Selector} {operands : List Operand} {i : Instr}
    (h : decodeOperands p sel operands = some i) : decode p (.txn ⟨sel.op, operands⟩) = .ok i := by
  simp only [decode, decodeTxn, selectorOf_op, h]

section Operands
variable (p : Params)

/-- A byte's number is one of 8 bits, and names the byte. -/
theorem decodeOperands_rxByte (b : Byte) : decodeOperands p .rxByte [.nat b.toNat] = some (.rxByte b) := by
  rw [decodeOperands, if_pos ((fitsBits_iff 8 _).2 b.isLt), BitVec.ofNat_toNat, BitVec.setWidth_eq]

theorem decodeOperands_pulse {ts : Nat} (h : fitsBits p.tsBits ts = true) :
    decodeOperands p .pulse [.nat ts] = some (.pulse ts) := if_pos h

theorem decodeOperands_tick {code : Nat} (h : fitsBits p.adcBits code = true) :
    decodeOperands p .tick [.nat code] = some (.tick code) := if_pos h

theorem fitsS16_toInt (n : BitVec 16) : fitsS16 n.toInt = true := by
  have hlo := BitVec.le_toInt n
  have hhi := BitVec.toInt_lt (x := n)
  rw [fitsS16, Bool.and_eq_true, decide_eq_true_iff, decide_eq_true_iff]
  omega

theorem decodeOperands_setCorr (n : BitVec 16) : decodeOperands p .setCorr [.int n.toInt] = some (.setCorr n) := by
  rw [decodeOperands, if_pos (fitsS16_toInt n), BitVec.ofInt_toInt]

theorem decodeOperands_emitMwv (h : BitVec 16) {q : Rat} (hq : 0 ≤ q) :
    decodeOperands p .emitMwv [.nat h.toNat, .rat q] = some (.emitMwv h q) := by
  have hfits : fitsBits 16 h.toNat && decide (0 ≤ q) :=
    Bool.and_eq_true_iff.2 ⟨(fitsBits_iff 16 _).2 h.isLt, decide_eq_true hq⟩
  rw [decodeOperands, if_pos hfits, BitVec.ofNat_toNat, BitVec.setWidth_eq]

theorem decodeOperands_emitHdm (h : BitVec 16) : decodeOperands p .emitHdm [.nat h.toNat] = some (.emitHdm h) := by
  rw [decodeOperands, if_pos ((fitsBits_iff 16 _).2 h.isLt), BitVec.ofNat_toNat, BitVec.setWidth_eq]

end Operands

/-- Settles O5: each selector reads the operands of its types, and a reserved one answers before any operand is read. -/
theorem selectorMapDecodesEveryOperand : Obligations.SelectorMapDecodesEveryOperand := by
  unfold Obligations.SelectorMapDecodesEveryOperand
  intro p
  refine ⟨rfl, fun b => ?rxByte, fun ts hts => ?pulse, fun code hcode => ?tick, fun n => ?setCorr, rfl,
    fun _ _ _ _ _ _ => rfl, fun h q hq => ?emitMwv, fun h => ?emitHdm, fun op operands hop => ?reserved⟩
  case rxByte => exact decode_txn_of_decodeOperands (decodeOperands_rxByte p b)
  case pulse => exact decode_txn_of_decodeOperands (decodeOperands_pulse p ((fitsBits_iff _ _).2 hts))
  case tick => exact decode_txn_of_decodeOperands (decodeOperands_tick p ((fitsBits_iff _ _).2 hcode))
  case setCorr => exact decode_txn_of_decodeOperands (decodeOperands_setCorr p n)
  case emitMwv => exact decode_txn_of_decodeOperands (decodeOperands_emitMwv p h hq)
  case emitHdm => exact decode_txn_of_decodeOperands (decodeOperands_emitHdm p h)
  case reserved => rw [decode, decodeTxn_reserved p operands hop]

/-- A sentence that a line can carry is read back from its line: the tokenizer undoes the join. -/
theorem decodeSentence_encodeSentence {t : Sentence} (h : sentenceOk t.talker t.fields = true) :
    decodeSentence (encodeSentence t) = .ok t := by
  obtain ⟨hbody, hfields, hcomma⟩ := sentenceOk_body h
  rw [encodeSentence, decodeSentence_wrapLine t.talker t.verb (join t.fields) hbody, split_join hfields hcomma]

theorem decode_line_encodeSentence (p : Params) {t : Sentence} (h : sentenceOk t.talker t.fields = true) :
    decode p (.line (encodeSentence t)) = .ok t.toInstr := by
  simp only [decode, decodeSentence_encodeSentence h]

/-- Settles O6: a transaction's operands are of its selector's types, and a sentence's line passes every check. -/
theorem decodeOfEncodeIsTheInstruction : Obligations.DecodeOfEncodeIsTheInstruction := by
  unfold Obligations.DecodeOfEncodeIsTheInstruction
  intro p i hwf
  cases i with
  | reset => rfl
  | rxByte b => exact decode_txn_of_decodeOperands (decodeOperands_rxByte p b)
  | pulse ts => exact decode_txn_of_decodeOperands (decodeOperands_pulse p hwf)
  | tick code => exact decode_txn_of_decodeOperands (decodeOperands_tick p hwf)
  | setCorr n => exact decode_txn_of_decodeOperands (decodeOperands_setCorr p n)
  | getCorr => rfl
  | encode talker verb fields => rfl
  | emitMwv h q => exact decode_txn_of_decodeOperands (decodeOperands_emitMwv p h (of_decide_eq_true hwf))
  | emitHdm h => exact decode_txn_of_decodeOperands (decodeOperands_emitHdm p h)
  | mwv talker fields => exact decode_line_encodeSentence p (t := ⟨.mwv, talker, fields⟩) hwf
  | vtg talker fields => exact decode_line_encodeSentence p (t := ⟨.vtg, talker, fields⟩) hwf
  | dpt talker fields => exact decode_line_encodeSentence p (t := ⟨.dpt, talker, fields⟩) hwf
  | hdm talker fields => exact decode_line_encodeSentence p (t := ⟨.hdm, talker, fields⟩) hwf

/-- The widths and the sign that the decoder checks are those of the instruction it answers. -/
theorem wellFormed_of_decodeOperands {p : Params} {sel : Selector} {operands : List Operand} {i : Instr}
    (h : decodeOperands p sel operands = some i) : i.wellFormed p = true := by
  unfold decodeOperands at h
  split at h
  case h_1 | h_6 | h_7 => cases h; rfl
  case h_2 | h_5 | h_9 => obtain ⟨-, ⟨⟩⟩ := Option.ite_none_right_eq_some.1 h; rfl
  case h_3 | h_4 => obtain ⟨hfits, ⟨⟩⟩ := Option.ite_none_right_eq_some.1 h; exact hfits
  case h_8 => obtain ⟨hfits, ⟨⟩⟩ := Option.ite_none_right_eq_some.1 h; exact (Bool.and_eq_true_iff.1 hfits).2
  case h_10 => cases h

theorem wellFormed_of_decodeTxn {p : Params} {x : Txn} {i : Instr} (h : decodeTxn p x = .ok i) :
    i.wellFormed p = true := by
  unfold decodeTxn at h
  split at h
  · cases h
  · split at h
    · rename_i hops
      cases h
      exact wellFormed_of_decodeOperands hops
    · cases h

theorem decode_txn_ok_iff {p : Params} {x : Txn} {i : Instr} : decode p (.txn x) = .ok i ↔ decodeTxn p x = .ok i := by
  rw [decode]
  cases decodeTxn p x <;> simp

theorem decode_line_ok_iff {p : Params} {L : Str} {i : Instr} :
    decode p (.line L) = .ok i ↔ ∃ t, decodeSentence L = .ok t ∧ t.toInstr = i := by
  rw [decode]
  cases decodeSentence L <;> simp

/-- Settles O7: the decoder reads each operand whole, so its checks are well-formedness and the encoder gives the record
back. -/
theorem encodeOfDecodedTransactionIsTheRecord : Obligations.EncodeOfDecodedTransactionIsTheRecord := by
  unfold Obligations.EncodeOfDecodedTransactionIsTheRecord
  intro p x i h
  have hdecode : decodeTxn p x = .ok i := decode_txn_ok_iff.1 h
  exact ⟨wellFormed_of_decodeTxn hdecode, encode_of_decodeTxn hdecode⟩

/-- What a line holds, without LF and within FRAME_CAP, makes a sentence that a line can carry (R60, R94, R98). -/
theorem sentenceOk_of_decodeSentence {L : Str} {t : Sentence} (hlf : lacks Chr.lf L = true)
    (hcap : L.length ≤ Config.frameCap) (h : decodeSentence L = .ok t) : sentenceOk t.talker t.fields = true := by
  obtain ⟨hlen, -, -, -, htalker, hfields⟩ := decodeSentence_ok h
  have hcap : L.length ≤ 1024 := hcap
  have hbody : join t.fields = (L.drop 6).take (L.length - 9) := by rw [hfields, join_split, lineBody_eq]
  have hjoined : joinedLength t.fields = L.length - 9 := by
    rw [← join_length, hbody, List.length_take, List.length_drop]
    omega
  have hbodylf : lacks Chr.lf (join t.fields) = true := by
    rw [hbody]
    exact lacks_of_subset (fun _ hx => List.mem_of_mem_drop (List.mem_of_mem_take hx)) hlf
  have htalkerlf : lacks Chr.lf t.talker.bytes = true := by
    rw [htalker, ← (verb_talker_slices hlen).2]
    exact lacks_of_subset (fun _ hx => List.mem_of_mem_drop (List.mem_of_mem_take hx)) hlf
  have hne : t.fields.isEmpty = false := by rw [hfields]; simpa using split_ne_nil (lineBody L)
  have hcomma : t.fields.all (lacks Chr.comma) = true := by rw [hfields]; exact split_all_lacks _
  rw [sentenceOk, hne, hjoined, hcomma, (join_lacks (by decide) _).1 hbodylf, htalkerlf]
  simp only [Config.frameCap, Bool.not_false, Bool.and_true, Bool.true_and, Bool.and_eq_true, decide_eq_true_eq]
  omega

theorem Sentence.toInstr_cases (t : Sentence) :
    t.toInstr = .mwv t.talker t.fields ∨ t.toInstr = .vtg t.talker t.fields ∨ t.toInstr = .dpt t.talker t.fields ∨
      t.toInstr = .hdm t.talker t.fields := by
  obtain ⟨v, talker, fields⟩ := t
  cases v <;> simp [toInstr]

/-- Settles O8: the talker and the body are slices of the line, and the tokenizer loses nothing of the body. -/
theorem decodedLineIsAWellFormedSentence : Obligations.DecodedLineIsAWellFormedSentence := by
  unfold Obligations.DecodedLineIsAWellFormedSentence
  intro p L i hlf hcap h
  obtain ⟨t, hdecode, rfl⟩ := decode_line_ok_iff.1 h
  obtain ⟨hlen, -, -, -, htalker, hfields⟩ := decodeSentence_ok hdecode
  refine ⟨(toInstr_wellFormed p t).trans (sentenceOk_of_decodeSentence hlf hcap hdecode), t.talker, t.fields,
    t.toInstr_cases, ?_, ?_⟩
  · rw [htalker, (verb_talker_slices hlen).2]
  · rw [hfields, join_split, lineBody_eq]

/-- Settles O4: the parameters bound no operand of these words, so each is decoded by evaluation. -/
theorem writtenOutWordsDecode : Obligations.WrittenOutWordsDecode := by
  unfold Obligations.WrittenOutWordsDecode
  refine ⟨by decide, by decide, by decide, fun p => ?star, fun p => ?minusTen, fun p => ?dpt, fun p => ?mwv, fun p => ?hdm,
    fun p => ?vtg⟩
  case star => exact decode_txn_of_decodeOperands (decodeOperands_rxByte p Chr.star)
  case minusTen => exact decode_txn_of_decodeOperands (decodeOperands_setCorr p (-10))
  case dpt => exact decode_line_ok_iff.2 ⟨⟨.dpt, _, _⟩, by decide +kernel, rfl⟩
  case mwv => exact decode_line_ok_iff.2 ⟨⟨.mwv, _, _⟩, by decide +kernel, rfl⟩
  case hdm => exact decode_line_ok_iff.2 ⟨⟨.hdm, _, _⟩, by decide +kernel, rfl⟩
  case vtg => exact decode_line_ok_iff.2 ⟨⟨.vtg, _, _⟩, by decide +kernel, rfl⟩

end Sys2Proof

/-! ### Turns and queues (20_memory.md R37 to R40, 60_exceptions.md R128) -/

namespace Sys2Proof
namespace Machine

/-- The state after a source's turn is taken and its queue is left as `rest`. -/
abbrev takeTurn (src : Source) (turns : List Source) (rest : List Txn) (s : State) : State :=
  setSchedule turns (setPending src rest s)

theorem pending_takeTurn (other src : Source) (turns : List Source) (rest : List Txn) (s : State) :
    pending other (takeTurn src turns rest s) = if other = src then rest else pending other s := by
  rw [takeTurn, pending_setSchedule, pending_setPending]

section Turn
variable {s : State} {src : Source} {turns : List Source} (hturn : s.schedule = src :: turns)
include hturn

theorem step_of_pending {x : Txn} {rest : List Txn} (hpending : pending src s = x :: rest) :
    step s = execTxn x (takeTurn src turns rest s) := by
  rw [step_eq, hturn]
  simp only [hpending]

theorem step_of_nothing_pending (hpending : pending src s = []) : step s = .next (setSchedule turns s) := by
  rw [step_eq, hturn]
  simp only [hpending]

end Turn

theorem step_of_no_turn {s : State} (hidle : s.schedule = []) : step s = .next s := by
  rw [step_eq, hidle]

/-- Settles O11: a step with no turn takes nothing. -/
theorem idleStepKeepsTheState : Obligations.IdleStepKeepsTheState := by
  unfold Obligations.IdleStepKeepsTheState
  exact fun _ => step_of_no_turn

/-- Settles O9: the step executes the transaction taken, and executing is running what it decodes to. -/
theorem stepRunsTheDecodedTransaction : Obligations.StepRunsTheDecodedTransaction := by
  unfold Obligations.StepRunsTheDecodedTransaction
  intro s src turns x rest i hturn hpending hdecode
  have hcfg : (takeTurn src turns rest s).cfg = s.cfg := by rw [setSchedule_cfg, setPending_cfg]
  rw [step_of_pending hturn hpending, exec_eq_after]
  exact execTxn_ok (by rw [hcfg]; exact decode_txn_ok_iff.1 hdecode)

/-- Settles O12: no transaction writes a queue, the schedule or the configuration, so they are as the turn left them. -/
theorem stepTakesOneTurnInIssueOrder : Obligations.StepTakesOneTurnInIssueOrder := by
  unfold Obligations.StepTakesOneTurnInIssueOrder
  intro s t src turns hturn hstep
  cases hpending : pending src s with
  | nil =>
    rw [step_of_nothing_pending hturn hpending] at hstep
    obtain rfl := Host.Outcome.next.inj hstep
    refine ⟨rfl, ?_, fun other _ => ?_, rfl⟩
    · rw [pending_setSchedule, hpending, List.tail_nil]
    · rw [pending_setSchedule]
  | cons x rest =>
    rw [step_of_pending hturn hpending] at hstep
    obtain ⟨hqueues, hschedule, hcfg⟩ := execTxn_own hstep
    refine ⟨hschedule, ?_, fun other hother => ?_, ?_⟩
    · rw [hqueues, pending_takeTurn, if_pos rfl, List.tail_cons]
    · rw [hqueues, pending_takeTurn, if_neg hother]
    · rw [hcfg, setSchedule_cfg, setPending_cfg]

/-- Settles O14: `exec` answers the state that `after` names. -/
theorem everyInstructionAnswersANextState : Obligations.EveryInstructionAnswersANextState := by
  unfold Obligations.EveryInstructionAnswersANextState
  exact fun i s => ⟨after i s, exec_eq_after i s⟩

/-- The oldest transaction of the source whose turn it is, when it can be written down (R49), is taken and executed. -/
theorem step_of_legal {s : State} {src : Source} {turns : List Source} {x : Txn} {rest : List Txn}
    (hturn : s.schedule = src :: turns) (hpending : pending src s = x :: rest) (hlegal : x.legal s.cfg = true) :
    ∃ t, step s = .next t ∧ execTxn x (takeTurn src turns rest s) = .next t := by
  have hcfg : (takeTurn src turns rest s).cfg = s.cfg := by rw [setSchedule_cfg, setPending_cfg]
  obtain ⟨t, ht⟩ := execTxn_legal (s := takeTurn src turns rest s) (by rwa [hcfg])
  exact ⟨t, (step_of_pending hturn hpending).trans ht, ht⟩

/-- Settles O15: a transaction that can be written down answers a next state, and the turns with nothing to take do too. -/
theorem everyIssuedTransactionIsTaken : Obligations.EveryIssuedTransactionIsTaken := by
  unfold Obligations.EveryIssuedTransactionIsTaken
  constructor
  · intro s src turns x rest hturn hpending hlegal
    obtain ⟨t, hstep, hexec⟩ := step_of_legal hturn hpending hlegal
    obtain ⟨hqueues, hschedule, -⟩ := execTxn_own hexec
    exact ⟨t, hstep, hexec, by rw [hqueues, pending_takeTurn, if_pos rfl], hschedule⟩
  · intro s hlegal
    cases hturn : s.schedule with
    | nil => exact ⟨s, step_of_no_turn hturn⟩
    | cons src turns =>
      cases hpending : pending src s with
      | nil => exact ⟨_, step_of_nothing_pending hturn hpending⟩
      | cons x rest =>
        obtain ⟨t, hstep, -⟩ := step_of_legal hturn hpending (hlegal src x (by rw [hpending]; exact List.mem_cons_self))
        exact ⟨t, hstep⟩

/-! ### Any interleaving of the sources (R39, R40) -/

/-- The block has nothing to take (R128). -/
def Idle (s : State) : Prop := s.schedule = [] ∧ ∀ src, pending src s = []

theorem schedule_issueAll (l : List (Source × Txn)) (s : State) :
    (issueAll l s).schedule = s.schedule ++ l.map Prod.fst := by
  induction l generalizing s with
  | nil => exact (List.append_nil _).symm
  | cons a l ih => rw [issueAll, ih, issue, setSchedule_schedule, List.append_assoc]; rfl

theorem pending_issue (src a : Source) (x : Txn) (s : State) :
    pending src (issue a x s) = pending src s ++ if a = src then [x] else [] := by
  rw [issue, pending_setSchedule, pending_setPending]
  by_cases h : a = src
  · subst h; rw [if_pos rfl, if_pos rfl]
  · rw [if_neg h, if_neg (Ne.symm h), List.append_nil]

/-- A source's queue has what the source issued, in issue order, behind what it held. -/
theorem pending_issueAll (src : Source) (l : List (Source × Txn)) (s : State) :
    pending src (issueAll l s) = pending src s ++ (l.filter fun a => a.1 = src).map Prod.snd := by
  induction l generalizing s with
  | nil => exact (List.append_nil _).symm
  | cons a l ih =>
    rw [issueAll, ih, pending_issue, List.append_assoc, List.filter_cons]
    by_cases h : a.1 = src <;> simp [h]

theorem cfg_issueAll (l : List (Source × Txn)) (s : State) : (issueAll l s).cfg = s.cfg := by
  induction l generalizing s with
  | nil => rfl
  | cons a l ih => rw [issueAll, ih, issue, setSchedule_cfg, setPending_cfg]

/-- An instruction neither sees nor writes what is issued, so it does the same before and after more is issued. -/
theorem after_issue (i : Instr) (src : Source) (x : Txn) (s : State) :
    after i (issue src x s) = issue src x (after i s) := by
  cases src <;> cases i <;> rfl

theorem after_issueAll (i : Instr) (l : List (Source × Txn)) (s : State) :
    after i (issueAll l s) = issueAll l (after i s) := by
  induction l generalizing s with
  | nil => rfl
  | cons a l ih => rw [issueAll, ih, after_issue]; rfl

theorem emit_issueAll (ev : Event) (l : List (Source × Txn)) (s : State) :
    emit ev (issueAll l s) = issueAll l (emit ev s) := by
  induction l generalizing s with
  | nil => rfl
  | cons a l ih =>
    have hemit : emit ev (issue a.1 a.2 s) = issue a.1 a.2 (emit ev s) := by cases a.1 <;> rfl
    rw [issueAll, ih, hemit]; rfl

/-- In an idle block a transaction just issued is the very next one taken. -/
theorem issue_of_idle {s : State} (h : Idle s) (src : Source) (x : Txn) : issue src x s = issueFirst src x s := by
  obtain ⟨hschedule, hpending⟩ := h
  rw [issue, issueFirst, hschedule, hpending]; rfl

/-- Issuing a transaction does not move the one that is taken next. -/
theorem issue_issueFirst (b a : Source) (y x : Txn) (s : State) :
    issue b y (issueFirst a x s) = issueFirst a x (issue b y s) := by
  cases a <;> cases b <;> rfl

theorem issueAll_issueFirst (l : List (Source × Txn)) (a : Source) (x : Txn) (s : State) :
    issueAll l (issueFirst a x s) = issueFirst a x (issueAll l s) := by
  induction l generalizing s with
  | nil => rfl
  | cons b l ih => rw [issueAll, issue_issueFirst, ih]; rfl

/-- Taking the transaction that is next leaves the state it was issued in. -/
theorem step_issueFirst (src : Source) (x : Txn) (s : State) : step (issueFirst src x s) = execTxn x s := by
  cases src <;> rfl

theorem step_issueAll {s : State} (h : Idle s) (src : Source) (x : Txn) (l : List (Source × Txn)) :
    step (issueAll ((src, x) :: l) s) = execTxn x (issueAll l s) := by
  rw [issueAll, issue_of_idle h, issueAll_issueFirst, step_issueFirst]

theorem Idle.of_execTxn {x : Txn} {s t : State} (hs : Idle s) (h : execTxn x s = .next t) : Idle t := by
  obtain ⟨hqueues, hschedule, -⟩ := execTxn_own h
  exact ⟨hschedule.trans hs.1, fun src => (hqueues src).trans (hs.2 src)⟩

/-- As many steps as transactions, from an idle block that all of them were issued to: the first step runs the first one in
the state with the rest issued, which is the rest issued in the state it leaves. -/
theorem run_issueAll {s : State} (hs : Idle s) (l : List (Source × Txn)) :
    Host.Core.run Sys2Proof.core l.length (issueAll l s) = runTxns (l.map Prod.snd) s := by
  induction l generalizing s with
  | nil => rfl
  | cons a l ih =>
    obtain ⟨src, x⟩ := a
    rw [List.length_cons, run_core_succ, step_issueAll hs, List.map_cons, runTxns]
    have hcfg : decodeTxn (issueAll l s).cfg x = decodeTxn s.cfg x := by rw [cfg_issueAll]
    cases hdecode : decodeTxn s.cfg x with
    | ok i =>
      have hx : execTxn x s = .next (after i s) := execTxn_ok hdecode
      rw [execTxn_ok (hcfg.trans hdecode), after_issueAll, hx]
      exact ih (hs.of_execTxn hx)
    | error e =>
      cases e with
      | reserved op =>
        have hx : execTxn x s = .next (emit (.refused op) s) := execTxn_reserved hdecode
        rw [execTxn_reserved (hcfg.trans hdecode), emit_issueAll, hx]
        exact ih (hs.of_execTxn hx)
      | operands op =>
        rw [execTxn_operands (hcfg.trans hdecode), execTxn_operands hdecode]
        rfl

/-- Settles O13: an induction along the issue order, since executing a transaction and issuing others behind it commute. -/
theorem stepsRunAnyInterleavingInOneTotalOrder : Obligations.StepsRunAnyInterleavingInOneTotalOrder := by
  unfold Obligations.StepsRunAnyInterleavingInOneTotalOrder
  intro s l hschedule hpending
  refine ⟨?_, fun src => ?_, run_issueAll ⟨hschedule, hpending⟩ l⟩
  · rw [schedule_issueAll, hschedule, List.nil_append]
  · rw [pending_issueAll, hpending, List.nil_append]

end Machine
end Sys2Proof

/-! ### The reported speed (40_sampler.md R77, R78, 70_reset_and_hazards.md R133) -/

namespace Sys2Proof
namespace Machine

theorem oldestPulse_eq_getD (s : State) : oldestPulse s = s.pr.toList.getD s.pi.val 0 := by
  have hpi : s.pi.val < s.pr.toList.length := by simp
  rw [List.getD_eq_getElem _ _ hpi, Vector.getElem_toList]
  rfl

theorem newestPulse_eq_getD (s : State) : newestPulse s = s.pr.toList.getD ((s.pi.val + 9) % 10) 0 := by
  have hslot : (s.pi.val + 9) % 10 < s.pr.toList.length := by
    rw [Vector.length_toList]; exact Nat.mod_lt _ (by norm_num)
  rw [List.getD_eq_getElem _ _ hslot, Vector.getElem_toList]
  rfl

theorem pulseSpan_cast (s : State) :
    (pulseSpan s : Int) = ((newestPulse s : Int) - (oldestPulse s : Int)) % (2 ^ s.cfg.tsBits) := by
  rw [pulseSpan, Int.toNat_of_nonneg (Int.emod_nonneg _ (by positivity))]
  push_cast
  rfl

theorem reportSpeed_of_sentinel {s : State} (h : oldestPulse s = 0) : reportSpeed s = 0 := if_pos h

theorem reportSpeed_of_no_span {s : State} (h : pulseSpan s = 0) : reportSpeed s = 0 := by
  rw [reportSpeed, if_pos h, ite_self]

theorem reportSpeed_of_span {s : State} (hold : oldestPulse s ≠ 0) (hspan : pulseSpan s ≠ 0) :
    reportSpeed s = ((9 * s.cfg.ticksPerSecond : Nat) : Rat) * kCal / (pulseSpan s : Rat) :=
  (if_neg hold).trans (if_neg hspan)

theorem reportSpeed_nonneg (s : State) : 0 ≤ reportSpeed s := by
  by_cases hold : oldestPulse s = 0
  · rw [reportSpeed_of_sentinel hold]
  by_cases hspan : pulseSpan s = 0
  · rw [reportSpeed_of_no_span hspan]
  rw [reportSpeed_of_span hold hspan]
  have hcal : 0 ≤ kCal := by norm_num [kCal]
  positivity

/-- Settles O19: `delta` is the span, and off the two zero cases the speed is a quotient by it. -/
theorem reportSpeedIsNineIntervalsOverTheSpan : Obligations.ReportSpeedIsNineIntervalsOverTheSpan := by
  unfold Obligations.ReportSpeedIsNineIntervalsOverTheSpan
  intro s oldest newest delta holdest hnewest hdelta
  rw [← oldestPulse_eq_getD] at holdest
  rw [← newestPulse_eq_getD] at hnewest
  rw [holdest, hnewest, ← pulseSpan_cast, Nat.cast_inj] at hdelta
  subst holdest hdelta
  refine ⟨reportSpeed_of_sentinel, reportSpeed_of_no_span, fun hold hspan => ?_, reportSpeed_nonneg s⟩
  rw [reportSpeed_of_span hold hspan, div_mul_cancel₀ _ (Nat.cast_ne_zero.2 hspan), kCal]
  push_cast
  ring

/-- Events behind which OUT has as many readings as before hold no reading. -/
theorem not_reading_of_readings_eq {out evs : List Event}
    (h : (out ++ evs).countP Event.isReading = out.countP Event.isReading) {heading : Nat} {speed : Rat} :
    Event.reading heading speed ∉ evs := by
  rw [List.countP_append, Nat.add_eq_left, List.countP_eq_zero] at h
  exact fun hmem => h _ hmem rfl

/-- A report's READING has the speed of the pulse ring, which the TICK's own write leaves alone. -/
theorem speed_of_mem_tickEvents {code : Nat} {s : State} {heading : Nat} {speed : Rat}
    (h : Event.reading heading speed ∈ tickEvents code s) : speed = reportSpeed s := by
  by_cases hwrap : ringNext s.di = 0
  · have hother : Event.reading heading speed ∉
        if s.cfg.autoEmitMwv then [Event.tx (mwvSentence s.cfg.roundTies (reportHeading (writeSample code s))
          (reportSpeed (writeSample code s)))] else [] := by split <;> simp
    rw [tickEvents_of_wrap hwrap, reportEvents, List.mem_cons] at h
    obtain hreading | hmem := h
    · exact (Event.reading.inj hreading).2
    · exact absurd hmem hother
  · rw [tickEvents_of_no_wrap hwrap] at h
    cases h

/-- Every READING that an instruction appends has the speed of the state before it. -/
theorem readings_of_after (i : Instr) (s : State) : ∃ evs, (after i s).out = s.out ++ evs ∧
    ∀ (heading : Nat) (speed : Rat), Event.reading heading speed ∈ evs → speed = reportSpeed s := by
  cases hcode : i.tickCode with
  | none =>
    obtain ⟨evs, hevs⟩ := after_appendsUnread i s
    have hsame := readings_after_of_not_tick hcode s
    rw [readings, hevs.out] at hsame
    exact ⟨evs, hevs.out, fun _ _ hmem => absurd hmem (not_reading_of_readings_eq hsame)⟩
  | some code =>
    obtain rfl := eq_tick_of_tickCode hcode
    exact ⟨tickEvents code s, rfl, fun _ _ => speed_of_mem_tickEvents⟩

theorem readings_of_execTxn {x : Txn} {s t : State} (h : execTxn x s = .next t) : ∃ evs, t.out = s.out ++ evs ∧
    ∀ (heading : Nat) (speed : Rat), Event.reading heading speed ∈ evs → speed = reportSpeed s := by
  obtain ⟨i, -, rfl⟩ | ⟨op, -, rfl⟩ := execTxn_next h
  · exact readings_of_after i s
  · exact ⟨[.refused op], rfl, fun _ _ hmem => by simp at hmem⟩

/-- After a RESET the ring is ten sentinels. -/
theorem timestamps_of_reset {s : State} (h : s.block = State.reset.block) : timestamps s = List.replicate 10 0 := by
  have hpr : s.pr = Vector.replicate 10 0 := congrArg Block.pr h
  rw [timestamps, hpr, Vector.toList_replicate, List.rotate_replicate]

/-- Fewer than ten PULSEs after it leave a sentinel in the oldest slot (R133). -/
theorem reportSpeed_of_fewer_than_ten_pulses {l : List Txn} {s t : State} (hs : s.block = State.reset.block)
    (hl : ∀ x ∈ l, x.op ≠ 0x00) (hfew : (l.filterMap Txn.pulseStamp).length < 10) (h : runTxns l s = .next t) :
    reportSpeed t = 0 := by
  refine reportSpeed_of_sentinel ?_
  rw [oldestPulse_eq_timestamps, runTxns_timestamps hl h, timestamps_of_reset hs, List.getD_eq_getElem?_getD,
    List.getElem?_drop, Nat.add_zero, List.getElem?_append_left (by rwa [List.length_replicate]),
    List.getElem?_replicate_of_lt hfew]
  rfl

/-- Settles O23: every READING has the speed of the state before its TICK, and each state on the way is reached with fewer
than ten PULSEs; so the induction is on the last transaction of the run. -/
theorem speedIsZeroUntilTenPulsesSinceReset : Obligations.SpeedIsZeroUntilTenPulsesSinceReset := by
  unfold Obligations.SpeedIsZeroUntilTenPulsesSinceReset
  intro l s t hs hl hfew h
  refine ⟨reportSpeed_of_fewer_than_ten_pulses hs hl hfew h, ?_⟩
  induction l using List.reverseRecOn generalizing t with
  | nil => cases h; exact ⟨[], (List.append_nil _).symm, nofun⟩
  | append_singleton l x ih =>
    obtain ⟨u, hprefix, hx⟩ := runTxns_snoc h
    have hops : ∀ y ∈ l, y.op ≠ 0x00 := fun y hy => hl y (List.mem_append_left _ hy)
    have hfewer : (l.filterMap Txn.pulseStamp).length < 10 := by
      rw [List.filterMap_append, List.length_append] at hfew
      omega
    have hspeed : reportSpeed u = 0 := reportSpeed_of_fewer_than_ten_pulses hs hops hfewer hprefix
    obtain ⟨evs, hout, hzero⟩ := ih u hops hfewer hprefix
    obtain ⟨evs', hout', hlast⟩ := readings_of_execTxn hx
    refine ⟨evs ++ evs', by rw [hout', hout, List.append_assoc], fun heading speed hmem => ?_⟩
    obtain hmem | hmem := List.mem_append.1 hmem
    · exact hzero heading speed hmem
    · exact (hlast heading speed hmem).trans hspeed

/-! ### The direction ring, oldest sample first (R72, R133) -/

/-- DR read from the slot that DI names, as `timestamps` reads PR from the slot that PI names. -/
def samples (s : State) : List Nat := timestamps { s with pr := s.dr, pi := s.di }

theorem samples_length (s : State) : (samples s).length = 10 := timestamps_length _

/-- When DI is 0 the ring is in the order it was written. -/
theorem samples_of_di_zero {s : State} (h : s.di.val = 0) : samples s = s.dr.toList := by
  rw [samples, timestamps, h, List.rotate_zero]

theorem samples_writeSample (code : Nat) (s : State) : samples (writeSample code s) = (samples s).tail ++ [code] :=
  timestamps_writePulse code { s with pr := s.dr, pi := s.di }

/-- A TICK pushes its code in; every other instruction but RESET leaves the ring. -/
theorem samples_after {i : Instr} (h : i ≠ .reset) (s : State) :
    samples (after i s) = (samples s ++ i.tickCode.toList).drop i.tickCode.toList.length := by
  cases i with
  | reset => exact absurd rfl h
  | tick code =>
    have hne : samples s ≠ [] := List.ne_nil_of_length_pos (by rw [samples_length]; norm_num)
    calc samples (after (.tick code) s) = samples (writeSample code s) := rfl
      _ = (samples s ++ [code]).drop 1 := by
        rw [samples_writeSample, ← List.tail_append_of_ne_nil hne, ← List.drop_one]
  | _ => exact (List.append_nil (samples s)).symm

theorem execTxn_samples {x : Txn} {s t : State} (hx : x.op ≠ 0x00) (h : execTxn x s = .next t) :
    samples t = (samples s ++ x.tickCode.toList).drop x.tickCode.toList.length := by
  obtain ⟨i, hdecode, rfl⟩ | ⟨op, hdecode, rfl⟩ := execTxn_next h
  · obtain ⟨-, hcode, hreset⟩ := kind_of_decodeTxn hdecode
    rw [hcode, samples_after (hreset hx)]
  · obtain ⟨-, hcode⟩ := kind_of_decodeTxn_reserved hdecode
    rw [hcode]
    exact (List.append_nil (samples s)).symm

/-- The codes of a run's TICKs push out as many of the oldest samples (R72). -/
theorem runTxns_samples {l : List Txn} {s t : State} (hl : ∀ x ∈ l, x.op ≠ 0x00) (h : runTxns l s = .next t) :
    samples t = (samples s ++ l.filterMap Txn.tickCode).drop (l.filterMap Txn.tickCode).length := by
  induction l using List.reverseRecOn generalizing t with
  | nil => cases h; exact (List.append_nil (samples s)).symm
  | append_singleton l x ih =>
    obtain ⟨u, hprefix, hx⟩ := runTxns_snoc h
    have hops : ∀ y ∈ l, y.op ≠ 0x00 := fun y hy => hl y (List.mem_append_left _ hy)
    have hlast : [x].filterMap Txn.tickCode = x.tickCode.toList := by
      rw [filterMap_cons_toList, List.filterMap_nil, List.append_nil]
    have hle : (l.filterMap Txn.tickCode).length ≤ (samples s ++ l.filterMap Txn.tickCode).length := by
      rw [List.length_append]; omega
    rw [execTxn_samples (hl x (by simp)) hx, ih hops hprefix, List.filterMap_append, hlast, List.length_append,
      ← List.append_assoc, ← List.drop_append_of_le_length hle, List.drop_drop]

/-- Settles O21: ten codes push out all ten samples that the ring held, and leave DI at 0 again. -/
theorem ringHoldsTheTenSamplesSinceTheWrap : Obligations.RingHoldsTheTenSamplesSinceTheWrap := by
  unfold Obligations.RingHoldsTheTenSamplesSinceTheWrap
  intro l s t hdi hl hten h
  obtain ⟨-, hdi'⟩ := runTxns_ticks hl h
  have hwrapped : t.di.val = 0 := by omega
  rw [← samples_of_di_zero hwrapped, runTxns_samples hl h]
  exact List.drop_left' (by rw [samples_length, hten])

/-! ### A correction and the next report (40_sampler.md R76, R80, 70_reset_and_hazards.md R134) -/

/-- After a SET_CORR the report adds ten times the operand's remainder to a raw heading that does not read CORR. -/
theorem reportHeading_after_setCorr (n : BitVec 16) (code : Nat) (s : State) :
    (reportHeading (writeSample code (after (.setCorr n) s)) : Int) =
      ((rawHeading (writeSample code s) : Int) + (n.toInt % 360) * 10) % 3600 := by
  have hcorr : (after (.setCorr n) s).corr.toNat = (n.toInt % 360).toNat := writeCorr_toNat (by omega) s
  have hraw : rawHeading (writeSample code (after (.setCorr n) s)) = rawHeading (writeSample code s) := rfl
  rw [reportHeading, hraw, writeSample_corr, hcorr]
  push_cast
  rw [Int.toNat_of_nonneg (by omega)]

/-- Settles O26: the TICK's report reads the CORR that SET_CORR has written. -/
theorem correctionReachesTheNextReport : Obligations.CorrectionReachesTheNextReport := by
  unfold Obligations.CorrectionReachesTheNextReport
  intro s n code hdi
  let t := after (.setCorr n) s
  have hwrap : ringNext t.di = 0 := Fin.ext (congrArg (fun d => (d + 1) % 10) hdi)
  refine ⟨t, after (.tick code) t, reportHeading (writeSample code t), reportSpeed (writeSample code t),
    (reportEvents (writeSample code t)).tail, exec_eq_after _ s, exec_eq_after _ t, ?_, reportHeading_after_setCorr n code s⟩
  calc (after (.tick code) t).out = s.out ++ tickEvents code t := rfl
    _ = s.out ++ reportEvents (writeSample code t) := by rw [tickEvents_of_wrap hwrap]

end Machine
end Sys2Proof

/-! ### One received byte (42_parser_framing.md R92 to R95, 60_exceptions.md R116) -/

namespace Sys2Proof
namespace Machine

/-- Settles O10: the LF empties FB and processes the line, and a line that decodes runs its instruction. -/
theorem completedLineRunsItsSentence : Obligations.CompletedLineRunsItsSentence := by
  unfold Obligations.CompletedLineRunsItsSentence
  intro s i h
  obtain ⟨t, hdecode, rfl⟩ := decode_line_ok_iff.1 h
  rw [exec_rxByte_lf, processLine_of_decode hdecode]

/-- A byte other than LF writes FB and may emit an overflow. -/
theorem exec_rxByte_other {b : Byte} (hb : b ≠ Chr.lf) (s : State) :
    exec (.rxByte b) s = .next { s with fb := frameWith b s.fb, out := s.out ++ overflowEvents s.fb } := by
  rw [exec_eq_after, after, if_neg hb, if_neg hb]

theorem exec_rxByte_lf_event (s : State) :
    exec (.rxByte Chr.lf) s = .next { s with fb := [], out := s.out ++ [lineEvent (completedLine s.fb)] } :=
  exec_eq_after _ s

section Frame
variable {fb : Str}

theorem overflowEvents_of_full (h : fb.length = Config.frameCap) : overflowEvents fb = [.reject .framingOverflow] := if_pos h

theorem overflowEvents_of_room (h : fb.length ≠ Config.frameCap) : overflowEvents fb = [] := if_neg h

theorem frameWith_of_full (b : Byte) (h : fb.length = Config.frameCap) : frameWith b fb = fb.drop 1 ++ [b] := by
  rw [frameWith, if_pos h, List.drop_one]

theorem frameWith_of_room (b : Byte) (h : fb.length ≠ Config.frameCap) : frameWith b fb = fb ++ [b] := if_neg h

end Frame

/-- Settles O34: `frameWith` and `overflowEvents` on both sides of a full FB. -/
theorem byteIsAppendedAndTheOldestDiscardedWhenFull : Obligations.ByteIsAppendedAndTheOldestDiscardedWhenFull := by
  unfold Obligations.ByteIsAppendedAndTheOldestDiscardedWhenFull
  intro s b hb
  rw [exec_rxByte_other hb]
  refine ⟨fun hfull => ?_, fun hroom => ?_⟩
  · rw [frameWith_of_full b hfull, overflowEvents_of_full hfull]
  · rw [frameWith_of_room b hroom, overflowEvents_of_room hroom, List.append_nil]

/-- Settles O36: the event is that of the line completed. -/
theorem stateAfterALineIsTheStateWithFrameEmpty : Obligations.StateAfterALineIsTheStateWithFrameEmpty := by
  unfold Obligations.StateAfterALineIsTheStateWithFrameEmpty
  exact fun s => ⟨_, exec_rxByte_lf_event s⟩

theorem lineEvent_ne_overflow (L : Str) : lineEvent L ≠ .reject .framingOverflow := by
  obtain ⟨hdispatch, -⟩ | ⟨code, hreject, hcode⟩ := lineEvent_cases L
  · intro h
    rw [h] at hdispatch
    cases hdispatch
  · rw [hreject]
    exact fun h => hcode (Event.reject.inj h)

theorem overflow_mem_overflowEvents_iff (fb : Str) :
    Event.reject .framingOverflow ∈ overflowEvents fb ↔ fb.length = Config.frameCap := by
  by_cases h : fb.length = Config.frameCap
  · simp [overflowEvents_of_full h, h]
  · simp [overflowEvents_of_room h, h]

theorem length_overflowEvents_le (fb : Str) : (overflowEvents fb).length ≤ 1 := by
  unfold overflowEvents
  split <;> simp

/-- Settles O37: an LF gives a line's event, which is no overflow; another byte gives an overflow when FB is full. -/
theorem oneByteEmitsAtMostOneEvent : Obligations.OneByteEmitsAtMostOneEvent := by
  unfold Obligations.OneByteEmitsAtMostOneEvent
  intro s b
  by_cases hb : b = Chr.lf
  · subst hb
    refine ⟨_, [lineEvent (completedLine s.fb)], exec_rxByte_lf_event s, rfl, le_rfl, ?_⟩
    simp [(lineEvent_ne_overflow _).symm]
  · refine ⟨_, overflowEvents s.fb, exec_rxByte_other hb s, rfl, length_overflowEvents_le _, ?_⟩
    rw [overflow_mem_overflowEvents_iff]
    exact (and_iff_right hb).symm

/-! ### Lines in a batch (42_parser_framing.md R97) -/

/-- A line of at most 1023 bytes, sent with CR LF to an empty FB, is its own event and leaves FB empty. -/
theorem feeds_line {L : Str} (hL : lacks Chr.lf L = true) (hlen : L.length + 1 ≤ Config.frameCap) :
    Feeds (L ++ [Chr.cr, Chr.lf]) [] [] [lineEvent L] := by
  have hcr : lacks Chr.lf (L ++ [Chr.cr]) = true := (lacks_append _ _ _).2 ⟨hL, rfl⟩
  have hcrlen : (L ++ [Chr.cr]).length ≤ Config.frameCap := by rwa [List.length_append]
  have hbytes := feeds_of_lacks_lf (fb := []) hcr (Nat.zero_le _)
  rw [List.nil_append, rtake_of_length_le hcrlen, Nat.sub_eq_zero_of_le hcrlen] at hbytes
  have hline := hbytes.append (feeds_lf _)
  rwa [completedLine_concat_cr, List.append_assoc] at hline

/-- So it runs PROCESS_LINE on that line. -/
theorem runTxns_rxSentence {s : State} {L : Str} (hs : s.fb = []) (hL : lacks Chr.lf L = true)
    (hlen : L.length + 1 ≤ Config.frameCap) : runTxns (rxSentence L) s = processLine L s := by
  rw [rxSentence, (feeds_line hL hlen).runTxns_of_fb_eq hs, processLine_eq, emit]

/-- Lines one after another, each from the empty FB that the one before it leaves. -/
theorem feeds_lines {lines : List Str} (h : ∀ L ∈ lines, lacks Chr.lf L = true ∧ L.length + 1 ≤ Config.frameCap) :
    Feeds (lines.flatMap fun L => L ++ [Chr.cr, Chr.lf]) [] [] (lines.map lineEvent) := by
  induction lines with
  | nil => exact feeds_nil []
  | cons L lines ih =>
    obtain ⟨⟨hL, hlen⟩, hlines⟩ := List.forall_mem_cons.1 h
    rw [List.flatMap_cons]
    exact (feeds_line hL hlen).append (ih hlines)

theorem flatMap_rxChunk (chunks : List Str) : chunks.flatMap rxChunk = rxChunk chunks.flatten := by
  rw [rxChunk, List.map_flatten]
  rfl

/-- Settles O38: chunks are the same bytes, and each line of a batch starts from an empty FB. -/
theorem batchOfLinesGivesOneEventEachInOrder : Obligations.BatchOfLinesGivesOneEventEachInOrder := by
  unfold Obligations.BatchOfLinesGivesOneEventEachInOrder
  refine ⟨fun s chunks => by rw [flatMap_rxChunk], lineEvent, processLine_eq, fun s lines hs hlines => ?_⟩
  exact (feeds_lines hlines).runTxns_of_fb_eq hs

end Machine
end Sys2Proof

/-! ### A received HDM sentence (30_encoding.md R65) -/

namespace Sys2Proof
namespace Machine

/-- Settles O49: HDM is no key of REG. -/
theorem hdmSentenceIsDropped : Obligations.HdmSentenceIsDropped := by
  unfold Obligations.HdmSentenceIsDropped
  intro s talker fields
  rw [exec_eq_after]
  rfl

end Machine
end Sys2Proof

/-! ### Bits corrupted between `$` and `*` (43_parser_sentence.md R111) -/

namespace Sys2Proof
namespace Machine

section Corrupted
variable {L : Str} {k : Nat}

/-- The three bytes that end the line come after the byte changed. -/
theorem checksumField_set (hlen : 10 ≤ L.length) (hk : k ≤ L.length - 4) (b : Byte) :
    checksumField (L.set k b) = checksumField L := by
  have hstar : byteAt (L.set k b) (L.length - 3) = byteAt L (L.length - 3) := byteAt_set (by omega)
  have hhi : byteAt (L.set k b) (L.length - 2) = byteAt L (L.length - 2) := byteAt_set (by omega)
  have hlo : byteAt (L.set k b) (L.length - 1) = byteAt L (L.length - 1) := byteAt_set (by omega)
  simp only [checksumField, List.length_set, hstar, hhi, hlo]

/-- The byte changed is one of the checksum region, which is otherwise as it was. -/
theorem checksumRegion_set (hk : 1 ≤ k) (b : Byte) : checksumRegion (L.set k b) = (checksumRegion L).set (k - 1) b := by
  rw [checksumRegion_eq, checksumRegion_eq, List.length_set, List.drop_set, if_neg (by omega), List.take_set]

theorem getElem?_checksumRegion (hlow : 1 ≤ k) (hhigh : k ≤ L.length - 4) : (checksumRegion L)[k - 1]? = L[k]? := by
  rw [checksumRegion_eq, List.getElem?_take_of_lt (by omega), List.getElem?_drop, Nat.add_sub_cancel' hlow]

/-- A byte that the checksum region lacks stands at none of its positions. -/
theorem getElem?_ne_of_lacks {c : Byte} (h : lacks c (checksumRegion L) = true) (hlow : 1 ≤ k)
    (hhigh : k ≤ L.length - 4) : L[k]? ≠ some c := by
  rw [← getElem?_checksumRegion hlow hhigh]
  exact fun hc => (lacks_iff _ _).1 h (List.mem_of_getElem? hc)

theorem head?_set (hk : 1 ≤ k) (b : Byte) : (L.set k b).head? = L.head? := by
  rw [List.head?_eq_getElem?, List.head?_eq_getElem?, List.getElem?_set_ne (by omega)]

end Corrupted

theorem head?_of_byteAt_zero {L : Str} {b : Byte} (hL : 0 < L.length) (h : byteAt L 0 = b) : L.head? = some b := by
  rw [List.head?_eq_getElem?, byteAt_some hL, h]

/-- A line that passed its checks fails the checksum when a byte of its region is changed by a nonzero exclusive or: the sum
changes by the same, and the field does not change. -/
theorem decodeSentence_set_xor {L : Str} {t : Sentence} {k : Nat} {old d : Byte} (hdecode : decodeSentence L = .ok t)
    (hlow : 1 ≤ k) (hhigh : k ≤ L.length - 4) (hold : L[k]? = some old) (hd : d ≠ 0) :
    decodeSentence (L.set k (old ^^^ d)) = .error .checksumMismatch := by
  obtain ⟨hlen, hfirst, hfield, -, -, -⟩ := decodeSentence_ok hdecode
  refine decodeSentence_of_checksum_ne (by rwa [List.length_set]) ?_
    ((checksumField_set hlen hhigh _).trans hfield) ?_
  · rw [head?_set hlow, head?_of_byteAt_zero (by omega) hfirst]
  · rw [checksumRegion_set hlow, xsum_set_xor _ _ _ _ ((getElem?_checksumRegion hlow hhigh).trans hold)]
    simpa using hd

theorem lacks_set {c b : Byte} {L : Str} (hL : lacks c L = true) (hb : b ≠ c) (k : Nat) : lacks c (L.set k b) = true := by
  rw [lacks_iff] at hL ⊢
  intro hc
  obtain hmem | rfl := List.mem_or_eq_of_mem_set hc
  · exact hL hmem
  · exact hb rfl

theorem twoPow_ne_zero : ∀ bit : Fin 8, BitVec.twoPow 8 bit.val ≠ 0 := by decide

/-- Settles O50: one bit is a nonzero exclusive or, and the line is delivered whole. -/
theorem singleBitFlipIsAChecksumMismatch : Obligations.SingleBitFlipIsAChecksumMismatch := by
  unfold Obligations.SingleBitFlipIsAChecksumMismatch
  rintro s L t k old new bit hs hlf hcap hdecode hlow hhigh hold rfl hnew
  rw [runTxns_rxSentence hs (lacks_set hlf hnew k) (by rwa [List.length_set])]
  exact processLine_err (decodeSentence_set_xor hdecode hlow hhigh hold (twoPow_ne_zero bit)) s

/-! #### A byte that becomes LF -/

/-- Bytes, an LF, and a line with CR LF: two lines, whatever ends the first one (R94). -/
theorem feeds_two_lines {a L : Str} (ha : lacks Chr.lf a = true) (halen : a.length ≤ Config.frameCap)
    (hL : lacks Chr.lf L = true) (hLlen : L.length + 1 ≤ Config.frameCap) :
    Feeds (a ++ Chr.lf :: (L ++ [Chr.cr, Chr.lf])) [] [] [lineEvent (completedLine a), lineEvent L] := by
  have hbytes := feeds_of_lacks_lf (fb := []) ha (Nat.zero_le _)
  rw [List.nil_append, rtake_of_length_le halen, Nat.sub_eq_zero_of_le halen] at hbytes
  have hfeeds := (hbytes.append (feeds_lf a)).append (feeds_line hL hLlen)
  rwa [List.append_assoc] at hfeeds

theorem completedLine_prefix (fb : Str) : completedLine fb <+: fb := by
  unfold completedLine
  split
  · exact List.dropLast_prefix fb
  · exact List.prefix_rfl

theorem getElem?_of_prefix {a L : Str} (ha : a <+: L) {i : Nat} (hi : i < a.length) : a[i]? = L[i]? := by
  obtain ⟨rest, rfl⟩ := ha
  exact (List.getElem?_append_left hi).symm

/-- A beginning of a line, from before its `*`: too short, or its third byte from the end is of the checksum region. -/
theorem decodeSentence_of_prefix {L a : Str} (hfirst : L.head? = some Chr.dollar)
    (hstar : lacks Chr.star (checksumRegion L) = true) (ha : a <+: L) (hlen : a.length ≤ L.length - 4) :
    decodeSentence a = .error .badLength ∨ decodeSentence a = .error .badSuffix := by
  by_cases hshort : a.length < Config.minLine
  · exact .inl (decodeSentence_of_short hshort)
  · have hlong : 10 ≤ a.length := Nat.le_of_not_lt hshort
    have hhead : a.head? = some Chr.dollar := by
      rw [← hfirst, List.head?_eq_getElem?, List.head?_eq_getElem?, getElem?_of_prefix ha (by omega)]
    have hthird : a[a.length - 3]? ≠ some Chr.star := by
      rw [getElem?_of_prefix ha (by omega)]
      exact getElem?_ne_of_lacks hstar (by omega) (by omega)
    exact .inr (decodeSentence_of_no_suffix hlong hhead (checksumField_none hlong (.inl hthird)))

/-- An end of a line, from behind its `$`: too short, or its first byte is of the checksum region. -/
theorem decodeSentence_of_drop {L : Str} (hdollar : lacks Chr.dollar (checksumRegion L) = true) (k : Nat) :
    decodeSentence (L.drop (k + 1)) = .error .badLength ∨ decodeSentence (L.drop (k + 1)) = .error .badPrefix := by
  by_cases hshort : (L.drop (k + 1)).length < Config.minLine
  · exact .inl (decodeSentence_of_short hshort)
  · have hlong : 10 ≤ (L.drop (k + 1)).length := Nat.le_of_not_lt hshort
    refine .inr (decodeSentence_of_no_dollar hlong ?_)
    rw [List.length_drop] at hlong
    rw [List.head?_drop]
    exact getElem?_ne_of_lacks hdollar (by omega) (by omega)

/-- One of two rejections of a line is its event. -/
theorem lineEvent_of_either {L : Str} {c c' : RejectCode} (h : decodeSentence L = .error c ∨ decodeSentence L = .error c') :
    ∃ code, (code = c ∨ code = c') ∧ lineEvent L = .reject code := by
  obtain h | h := h
  · exact ⟨c, .inl rfl, lineEvent_err h⟩
  · exact ⟨c', .inr rfl, lineEvent_err h⟩

/-- Settles O51: the LF cuts the line into a beginning without its `*` and an end without its `$`. -/
theorem bitFlipToLineFeedDispatchesNothing : Obligations.BitFlipToLineFeedDispatchesNothing := by
  unfold Obligations.BitFlipToLineFeedDispatchesNothing
  intro s L t k hs hlf hcap hdecode hdollar hstar hlow hhigh
  rw [← checksumRegion_eq] at hdollar hstar
  obtain ⟨hlen, hbyte, -, -, -, -⟩ := decodeSentence_ok hdecode
  have hfirst : L.head? = some Chr.dollar := head?_of_byteAt_zero (by omega) hbyte
  have hprefix : completedLine (L.take k) <+: L := (completedLine_prefix _).trans (List.take_prefix k L)
  have hprefixlen : (completedLine (L.take k)).length ≤ L.length - 4 := by
    have := (completedLine_prefix (L.take k)).length_le
    rw [List.length_take] at this
    omega
  obtain ⟨c1, hc1, hfirstEvent⟩ := lineEvent_of_either (decodeSentence_of_prefix hfirst hstar hprefix hprefixlen)
  obtain ⟨c2, hc2, hsecondEvent⟩ := lineEvent_of_either (decodeSentence_of_drop hdollar k)
  have htake : lacks Chr.lf (L.take k) = true := lacks_of_subset (fun _ => List.mem_of_mem_take) hlf
  have hdrop : lacks Chr.lf (L.drop (k + 1)) = true := lacks_of_subset (fun _ => List.mem_of_mem_drop) hlf
  have htakelen : (L.take k).length ≤ Config.frameCap := by rw [List.length_take, Config.frameCap]; omega
  have hdroplen : (L.drop (k + 1)).length + 1 ≤ Config.frameCap := by rw [List.length_drop, Config.frameCap]; omega
  have hbytes : L.set k Chr.lf ++ [Chr.cr, Chr.lf] =
      L.take k ++ Chr.lf :: (L.drop (k + 1) ++ [Chr.cr, Chr.lf]) := by
    rw [List.set_eq_take_cons_drop _ (by omega), List.append_assoc, List.cons_append]
  refine ⟨c1, c2, hc1, hc2, ?_⟩
  rw [rxSentence, hbytes, (feeds_two_lines htake htakelen hdrop hdroplen).runTxns_of_fb_eq hs, hfirstEvent, hsecondEvent]

end Machine
end Sys2Proof

/-! ### The ASSEMBLER's output received again (41_assembler.md R90) -/

namespace Sys2Proof
namespace Machine

/-- Settles O30: FMT_T writes the tenths as a whole part, a point and one digit. -/
theorem writtenNumberReadsBack : Obligations.WrittenNumberReadsBack := by
  unfold Obligations.WrittenNumberReadsBack
  exact fun t => ⟨_, parseNum_fmtTenths t, tenths_value t, one_mul _⟩

theorem lacks_lf_wrapLine {content : Str} (h : lacks Chr.lf content = true) : lacks Chr.lf (wrapLine content) = true := by
  rw [wrapLine, lacks_cons, lacks_append, lacks_cons]
  exact ⟨by decide, h, by decide, lacks_lf_hex2 _⟩

theorem lacks_lf_verbBytesOfKey (v : SentenceVerb) : lacks Chr.lf (verbBytesOfKey v.key).bytes = true := by
  cases v <;> decide

theorem length_encodeOut (talker : Talker) (verb : VerbBytes) (fields : List Str) :
    (encodeOut talker verb fields).length =
      (wrapLine (talker.bytes ++ verb.bytes ++ Chr.comma :: join fields)).length + 2 := List.length_append

/-- Settles O52: the output is a line with CR LF, the line passes every check, and the tokenizer undoes the join behind the
comma that follows the verb. -/
theorem encodedSentenceIsReadBack : Obligations.EncodedSentenceIsReadBack := by
  unfold Obligations.EncodedSentenceIsReadBack
  intro s v talker fields hs hne hcomma hlf htalker hcap
  rw [length_encodeOut] at hcap
  have hbody : split (Chr.comma :: join fields) = [] :: fields := by rw [split_cons_comma, split_join hne hcomma]
  have hcontent : lacks Chr.lf (talker.bytes ++ (verbBytesOfKey v.key).bytes ++ Chr.comma :: join fields) = true := by
    rw [lacks_append, lacks_append, lacks_cons]
    exact ⟨⟨htalker, lacks_lf_verbBytesOfKey v⟩, by decide, (join_lacks (by decide) _).2 hlf⟩
  have hdecode := decodeSentence_wrapLine talker v (Chr.comma :: join fields) (List.cons_ne_nil _ _)
  rw [hbody] at hdecode
  rw [← processLine_of_decode hdecode]
  exact runTxns_rxSentence hs (lacks_lf_wrapLine hcontent) (by rw [Config.frameCap]; omega)

/-- A number in tenths is written in digits and a point. -/
theorem lacks_fmtTenths {c : Byte} (hdigit : isDigit c = false) (hdot : c ≠ Chr.dot) (t : Nat) :
    lacks c (fmtTenths t) = true := by
  have hdigits {ds : Str} (hds : ds.all isDigit = true) : lacks c ds = true :=
    (lacks_iff _ _).2 fun hc => by rw [List.all_eq_true.1 hds c hc] at hdigit; cases hdigit
  have hlast : [digitByte (t % 10)].all isDigit = true := by
    simpa using (digitByte_spec (t % 10) (Nat.mod_lt _ (by norm_num))).1
  rw [fmtTenths, lacks_append, lacks_cons]
  exact ⟨hdigits (decDigits_spec _ _ le_rfl).1, hdot.symm, hdigits hlast⟩

/-- The fields of `mwvSentence` (R88). -/
def mwvFields (ties : RoundTies) (headingTenths : Nat) (speed : Rat) : List Str :=
  [fmtTenths headingTenths, [0x52], fmt1 ties speed, [0x4E], [0x41]]

theorem mwvSentence_eq_mwvFields (ties : RoundTies) (headingTenths : Nat) (speed : Rat) :
    mwvSentence ties headingTenths speed =
      encodeOut ⟨0x49, 0x49⟩ (verbBytesOfKey (SentenceVerb.key .mwv)) (mwvFields ties headingTenths speed) := rfl

/-- None of them has a byte that is no digit, no point and none of the three letters. -/
theorem lacks_mwvFields {c : Byte} (hdigit : isDigit c = false) (hdot : c ≠ Chr.dot)
    (hletters : lacks c [0x52, 0x4E, 0x41] = true) (ties : RoundTies) (headingTenths : Nat) (speed : Rat) :
    (mwvFields ties headingTenths speed).all (lacks c) = true := by
  simp only [mwvFields, lacks, List.all_cons, List.all_nil, Bool.and_true, Bool.and_eq_true] at hletters ⊢
  exact ⟨lacks_fmtTenths hdigit hdot _, hletters.1, lacks_fmtTenths hdigit hdot _, hletters.2⟩

/-- Read back, they are a wind in knots: the heading truncated to degrees, the speed in the tenths written (R107). -/
theorem parseMwv_mwvFields (talker : Talker) (ties : RoundTies) (headingTenths : Nat) (speed : Rat) :
    parseMwv talker ([] :: mwvFields ties headingTenths speed) =
      .ok (.wind talker ((headingTenths / 10 : Nat) : Int) ((roundQ ties (speed * 10) : Rat) / 10)) := by
  set fields := [] :: mwvFields ties headingTenths speed with hfields
  have hangle : numField fields 1 = some ⟨false, headingTenths / 10, headingTenths % 10, 1⟩ := parseNum_fmtTenths _
  have hspeed : numField fields 3 = some ⟨false, _, _, 1⟩ := parseNum_fmtTenths (roundQ ties (speed * 10))
  have hunit : unitFactor (fields.getD 4 []) = some 1 := unitFactor_of_unit (.inr (.inr ⟨rfl, rfl⟩))
  rw [parseMwv_of_fields rfl hangle hspeed hunit, tenths_value, mul_one, NumText.trunc, NumText.sign,
    if_neg Bool.false_ne_true, one_mul]

/-- Settles O53: the output is ENCODE's of five fields without comma and LF, which read back as the MWV sentence. -/
theorem emittedWindSentenceIsReadBack : Obligations.EmittedWindSentenceIsReadBack := by
  unfold Obligations.EmittedWindSentenceIsReadBack
  intro s h q bytes hs hq hcap hexec
  rw [exec_eq_after, after] at hexec
  obtain rfl : mwvSentence s.cfg.roundTies h.toNat q = bytes := by simpa [emit] using hexec
  refine ⟨roundQ s.cfg.roundTies (q * 10), roundQ_nearest _ _ (mul_nonneg hq (by norm_num)), ?_⟩
  rw [mwvSentence_eq_mwvFields] at hcap ⊢
  have hne : mwvFields s.cfg.roundTies h.toNat q ≠ [] := List.cons_ne_nil _ _
  have hcomma := lacks_mwvFields (c := Chr.comma) (by decide) (by decide) (by decide) s.cfg.roundTies h.toNat q
  have hlf := lacks_mwvFields (c := Chr.lf) (by decide) (by decide) (by decide) s.cfg.roundTies h.toNat q
  rw [encodedSentenceIsReadBack s .mwv _ _ hs hne hcomma hlf (by decide) hcap, Sentence.toInstr, exec_mwv,
    parseMwv_mwvFields, next_conclude_ok]

end Machine
end Sys2Proof

/-! ### What each instruction writes and reads of S (10_state.md R28) -/

namespace Sys2Proof
namespace Machine

section Writes
variable {i : Instr} (hreset : i ≠ .reset)
include hreset

theorem fb_after (h : ∀ b, i ≠ .rxByte b) (s : State) : (after i s).fb = s.fb := by
  cases i with
  | reset => exact absurd rfl hreset
  | rxByte b => exact absurd rfl (h b)
  | _ => rfl

theorem dr_di_after (h : ∀ code, i ≠ .tick code) (s : State) : (after i s).dr = s.dr ∧ (after i s).di = s.di := by
  cases i with
  | reset => exact absurd rfl hreset
  | tick code => exact absurd rfl (h code)
  | _ => exact ⟨rfl, rfl⟩

theorem pr_pi_after (h : ∀ ts, i ≠ .pulse ts) (s : State) : (after i s).pr = s.pr ∧ (after i s).pi = s.pi := by
  cases i with
  | reset => exact absurd rfl hreset
  | pulse ts => exact absurd rfl (h ts)
  | _ => exact ⟨rfl, rfl⟩

theorem corr_after (h : ∀ n, i ≠ .setCorr n) (s : State) : (after i s).corr = s.corr := by
  cases i with
  | reset => exact absurd rfl hreset
  | setCorr n => exact absurd rfl (h n)
  | _ => rfl

end Writes

/-- With S and OUT put back, an instruction has changed nothing. -/
theorem after_frame (i : Instr) (s : State) :
    { after i s with fb := s.fb, dr := s.dr, di := s.di, pr := s.pr, pi := s.pi, corr := s.corr, out := s.out } = s := by
  cases i <;> rfl

/-- Settles O55: each part of S, by the instructions that leave it; the queues and the configuration, by all of them. -/
theorem instructionsWriteOnlyTheirOwnState : Obligations.InstructionsWriteOnlyTheirOwnState := by
  unfold Obligations.InstructionsWriteOnlyTheirOwnState
  intro i s t h
  rw [exec_eq_after] at h
  obtain rfl := Host.Outcome.next.inj h
  by_cases hreset : i = .reset
  · exact ⟨fun _ => .inl hreset, fun _ => .inl hreset, fun _ => .inl hreset, fun _ => .inl hreset, after_frame i s⟩
  refine ⟨fun hfb => .inr ?_, fun hdr => .inr ?_, fun hpr => .inr ?_, fun hcorr => .inr ?_, after_frame i s⟩
  · by_contra hno
    exact hfb (fb_after hreset (not_exists.1 hno) s)
  · by_contra hno
    obtain ⟨hsame, hsame'⟩ := dr_di_after hreset (not_exists.1 hno) s
    exact hdr.elim (· hsame) (· hsame')
  · by_contra hno
    obtain ⟨hsame, hsame'⟩ := pr_pi_after hreset (not_exists.1 hno) s
    exact hpr.elim (· hsame) (· hsame')
  · by_contra hno
    exact hcorr (corr_after hreset (not_exists.1 hno) s)

section Reads
variable {i : Instr} (hreset : i ≠ .reset)
include hreset

/-- FB is carried along unread. -/
theorem after_with_fb (h : ∀ b, i ≠ .rxByte b) (s : State) (fb : Str) :
    after i { s with fb := fb } = { after i s with fb := fb } := by
  cases i with
  | reset => exact absurd rfl hreset
  | rxByte b => exact absurd rfl (h b)
  | _ => rfl

/-- The direction ring is carried along unread. -/
theorem after_with_dr_di (h : ∀ code, i ≠ .tick code) (s : State) (dr : Vector Nat 10) (di : Fin 10) :
    after i { s with dr := dr, di := di } = { after i s with dr := dr, di := di } := by
  cases i with
  | reset => exact absurd rfl hreset
  | tick code => exact absurd rfl (h code)
  | _ => rfl

/-- The pulse ring is carried along unread; TICK is left out because its report reads it. -/
theorem after_with_pr_pi (htick : ∀ code, i ≠ .tick code) (hpulse : ∀ ts, i ≠ .pulse ts) (s : State)
    (pr : Vector Nat 10) (pi : Fin 10) :
    after i { s with pr := pr, pi := pi } = { after i s with pr := pr, pi := pi } := by
  cases i with
  | reset => exact absurd rfl hreset
  | tick code => exact absurd rfl (htick code)
  | pulse ts => exact absurd rfl (hpulse ts)
  | _ => rfl

/-- The correction is carried along unread; TICK is left out because its report reads it. -/
theorem after_with_corr (htick : ∀ code, i ≠ .tick code) (hset : ∀ n, i ≠ .setCorr n) (hget : i ≠ .getCorr)
    (s : State) (corr : BitVec 9) : after i { s with corr := corr } = { after i s with corr := corr } := by
  cases i with
  | reset => exact absurd rfl hreset
  | tick code => exact absurd rfl (htick code)
  | setCorr n => exact absurd rfl (hset n)
  | getCorr => exact absurd rfl hget
  | _ => rfl

end Reads

/-- An update that carries a part of the state along unread does so in `exec`. -/
theorem exec_of_after {i : Instr} {s s' t t' : State} (h : exec i s = .next t)
    (hcarry : after i s = t → after i s' = t') : exec i s' = .next t' := by
  rw [exec_eq_after] at h ⊢
  rw [hcarry (Host.Outcome.next.inj h)]

/-- Settles O56: RX_BYTE's new FB and its events are computed from FB alone, and the other instructions carry along what
they do not read. -/
theorem instructionsReadOnlyTheirOwnState : Obligations.InstructionsReadOnlyTheirOwnState := by
  unfold Obligations.InstructionsReadOnlyTheirOwnState
  refine ⟨fun b fb => ?rxByte, fun i s t fb hrx hreset h => ?fb, fun i s t dr di htick hreset h => ?direction,
    fun i s t pr pi htick hpulse hreset h => ?pulse, fun i s t corr htick hset hget hreset h => ?corr⟩
  case rxByte =>
    refine ⟨if b = Chr.lf then [] else frameWith b fb,
      if b = Chr.lf then [lineEvent (completedLine fb)] else overflowEvents fb, ?_⟩
    rintro s rfl
    exact exec_eq_after _ s
  case fb => exact exec_of_after h fun e => by rw [after_with_fb hreset hrx, e]
  case direction => exact exec_of_after h fun e => by rw [after_with_dr_di hreset htick, e]
  case pulse => exact exec_of_after h fun e => by rw [after_with_pr_pi hreset htick hpulse, e]
  case corr => exact exec_of_after h fun e => by rw [after_with_corr hreset htick hset hget, e]

end Machine
end Sys2Proof

/-! ### The invariant of S (10_state.md R18, R19, R21, R23, R27) -/

namespace Sys2Proof
namespace Machine

/-- Events in their ranges may be appended. -/
theorem State.Inv.append {s : State} (hs : s.Inv) {evs : List Event} (hevs : ∀ e ∈ evs, e.legal = true) :
    State.Inv { s with out := s.out ++ evs } := by
  obtain ⟨hfb, hdr, hpr, hcorr, hout, hcfg⟩ := hs
  exact ⟨hfb, hdr, hpr, hcorr, fun e he => (List.mem_append.1 he).elim (hout e) (hevs e), hcfg⟩

theorem State.Inv.emit {s : State} (hs : s.Inv) {ev : Event} (hev : ev.legal = true) : (emit ev s).Inv :=
  hs.append (List.forall_mem_singleton.2 hev)

/-- FB may be any bytes without LF within FRAME_CAP (R18). -/
theorem State.Inv.withFrame {s : State} (hs : s.Inv) {fb : Str} (hlf : lacks Chr.lf fb = true)
    (hcap : fb.length ≤ Config.frameCap) : State.Inv { s with fb := fb } := by
  obtain ⟨-, hrest⟩ := hs
  exact ⟨⟨hlf, hcap⟩, hrest⟩

/-- A ring whose entries are below a bound, after a value below it is written. -/
theorem forall_mem_set_lt {v : Vector Nat Config.ringSize} {i : Fin Config.ringSize} {a bound : Nat}
    (hv : ∀ c ∈ v.toList, c < bound) (ha : a < bound) : ∀ c ∈ (v.set i.val a i.isLt).toList, c < bound := by
  intro c hc
  rw [Vector.toList_set] at hc
  obtain hold | rfl := List.mem_or_eq_of_mem_set hc
  · exact hv c hold
  · exact ha

theorem State.Inv.writePulse {s : State} (hs : s.Inv) {ts : Nat} (hts : ts < 2 ^ s.cfg.tsBits) : (writePulse ts s).Inv := by
  obtain ⟨hfb, hdr, hpr, hrest⟩ := hs
  exact ⟨hfb, hdr, forall_mem_set_lt hpr hts, hrest⟩

theorem State.Inv.writeSample {s : State} (hs : s.Inv) {code : Nat} (hcode : code < 2 ^ s.cfg.adcBits) :
    (writeSample code s).Inv := by
  obtain ⟨hfb, hdr, hrest⟩ := hs
  exact ⟨hfb, forall_mem_set_lt hdr hcode, hrest⟩

theorem State.Inv.writeCorr {s : State} (hs : s.Inv) {v : Nat} (hv : v < 360) : (writeCorr v s).Inv := by
  obtain ⟨hfb, hdr, hpr, -, hrest⟩ := hs
  exact ⟨hfb, hdr, hpr, (writeCorr_toNat hv s).trans_lt hv, hrest⟩

/-- A ring at its reset value is within any width. -/
theorem forall_mem_emptyRing_lt (w : Nat) : ∀ c ∈ (Vector.replicate Config.ringSize (0 : Nat)).toList, c < 2 ^ w := by
  intro c hc
  rw [Vector.toList_replicate] at hc
  rw [List.eq_of_mem_replicate hc]
  exact Nat.two_pow_pos w

theorem corrReset_lt : corrReset.toNat < 360 := by decide

theorem State.Inv.resetBlock {s : State} (hs : s.Inv) : (resetBlock s).Inv := by
  obtain ⟨-, -, -, -, hout, hcfg⟩ := hs
  exact ⟨⟨rfl, Nat.zero_le _⟩, forall_mem_emptyRing_lt _, forall_mem_emptyRing_lt _, corrReset_lt, hout, hcfg⟩

/-- Settles O57: at power-on everything is 0 or empty, and the OPEN parameters are successors. -/
theorem invariantHoldsAtReset : Obligations.InvariantHoldsAtReset := by
  unfold Obligations.InvariantHoldsAtReset
  have hcfg : Config.params.legal = true := by simp [Params.legal, Config.params]
  exact ⟨⟨rfl, Nat.zero_le _⟩, forall_mem_emptyRing_lt _, forall_mem_emptyRing_lt _, corrReset_lt, nofun, hcfg⟩

/-- A turn taken is no part of the invariant. -/
theorem State.Inv.takeTurn {s : State} (hs : s.Inv) (src : Source) (turns : List Source) (rest : List Txn) :
    (takeTurn src turns rest s).Inv := by
  cases src <;> exact hs

/-! #### Events in their ranges (R27) -/

theorem legal_reading (s : State) : (Event.reading (reportHeading s) (reportSpeed s)).legal = true := by
  have hheading : reportHeading s < 3600 := Nat.mod_lt _ (by norm_num)
  rw [Event.legal, decide_eq_true hheading, decide_eq_true (reportSpeed_nonneg s), Bool.and_true]

theorem legal_tickEvents (code : Nat) (s : State) : ∀ e ∈ tickEvents code s, e.legal = true := by
  by_cases hwrap : ringNext s.di = 0
  · rw [tickEvents_of_wrap hwrap, reportEvents, List.forall_mem_cons]
    refine ⟨legal_reading _, ?_⟩
    split
    · exact List.forall_mem_singleton.2 (encodeOut_legal _ _ _)
    · exact nofun
  · rw [tickEvents_of_no_wrap hwrap]
    exact nofun

theorem legal_overflowEvents (fb : Str) : ∀ e ∈ overflowEvents fb, e.legal = true := by
  unfold overflowEvents
  split
  · exact List.forall_mem_singleton.2 rfl
  · exact nofun

theorem legal_lineEvent (L : Str) : (lineEvent L).legal = true := by
  obtain ⟨-, hlegal⟩ | ⟨code, hreject, -⟩ := lineEvent_cases L
  · exact hlegal
  · rw [hreject]; rfl

theorem legal_verdictEvent (v : SentenceVerb) (talker : Talker) (fields : List Str) :
    (verdictEvent (applyVerb v talker fields)).legal = true := by
  obtain ⟨ev, hok, -, hlegal⟩ | ⟨code, herror, -⟩ := applyVerb_cases v talker fields
  · rw [hok]; exact hlegal
  · rw [herror]; rfl

theorem lacks_frameWith {b : Byte} (hb : b ≠ Chr.lf) {fb : Str} (hlf : lacks Chr.lf fb = true) :
    lacks Chr.lf (frameWith b fb) = true := by
  have hlast : lacks Chr.lf [b] = true := (lacks_cons _ _ _).2 ⟨hb, rfl⟩
  unfold frameWith
  split
  · exact (lacks_append _ _ _).2 ⟨lacks_of_subset (fun _ => List.mem_of_mem_tail) hlf, hlast⟩
  · exact (lacks_append _ _ _).2 ⟨hlf, hlast⟩

theorem length_frameWith_le (b : Byte) {fb : Str} (hcap : fb.length ≤ Config.frameCap) :
    (frameWith b fb).length ≤ Config.frameCap := by
  by_cases hfull : fb.length = Config.frameCap
  · rw [frameWith_of_full b hfull, List.length_append, List.length_drop, hfull]
    exact le_rfl
  · rw [frameWith_of_room b hfull, List.length_append]
    exact Nat.lt_of_le_of_ne hcap hfull

theorem State.Inv.rxByte {s : State} (hs : s.Inv) (b : Byte) : (after (.rxByte b) s).Inv := by
  have ⟨⟨hlf, hcap⟩, _⟩ := hs
  by_cases hb : b = Chr.lf
  · rw [after, if_pos hb, if_pos hb]
    exact (hs.withFrame rfl (Nat.zero_le _)).append (List.forall_mem_singleton.2 (legal_lineEvent _))
  · rw [after, if_neg hb, if_neg hb]
    exact (hs.withFrame (lacks_frameWith hb hlf) (length_frameWith_le b hcap)).append (legal_overflowEvents _)

/-- An instruction with operands of their types keeps the invariant. -/
theorem State.Inv.after {i : Instr} {s : State} (hs : s.Inv) (hwf : i.wellFormed s.cfg = true) : (after i s).Inv := by
  cases i with
  | reset => exact hs.resetBlock
  | rxByte b => exact hs.rxByte b
  | pulse ts => exact hs.writePulse ((fitsBits_iff _ _).1 hwf)
  | tick code => exact (hs.writeSample ((fitsBits_iff _ _).1 hwf)).append (legal_tickEvents code s)
  | setCorr n => exact hs.writeCorr (by omega)
  | getCorr =>
    have ⟨_, _, _, hcorr, _⟩ := hs
    exact hs.emit (decide_eq_true hcorr)
  | encode talker verb fields => exact hs.emit (encodeOut_legal _ _ _)
  | emitMwv h q => exact hs.emit (encodeOut_legal _ _ _)
  | emitHdm h => exact hs.emit (encodeOut_legal _ _ _)
  | mwv talker fields => exact hs.emit (legal_verdictEvent .mwv talker fields)
  | vtg talker fields => exact hs.emit (legal_verdictEvent .vtg talker fields)
  | dpt talker fields => exact hs.emit (legal_verdictEvent .dpt talker fields)
  | hdm talker fields => exact hs.emit rfl

/-- Below 0x09 every selector is in the map (R48). -/
theorem nine_le_of_selectorOf_none {op : Byte} (h : selectorOf op = none) : 9 ≤ op.toNat := by
  by_contra hlt
  unfold selectorOf at h
  interval_cases hop : op.toNat <;> cases h

/-- A selector that the decoder calls reserved is one of 0x09 to 0xFF (R50). -/
theorem nine_le_of_decodeTxn_reserved {p : Params} {x : Txn} {op : Byte} (h : decodeTxn p x = .error (.reserved op)) :
    9 ≤ op.toNat := by
  unfold decodeTxn at h
  split at h
  · rename_i hsel
    cases h
    exact nine_le_of_selectorOf_none hsel
  · split at h <;> cases h

theorem State.Inv.execTxn {x : Txn} {s t : State} (hs : s.Inv) (h : execTxn x s = .next t) : t.Inv := by
  obtain ⟨i, hdecode, rfl⟩ | ⟨op, hdecode, rfl⟩ := execTxn_next h
  · exact hs.after (wellFormed_of_decodeTxn hdecode)
  · exact hs.emit (decide_eq_true (nine_le_of_decodeTxn_reserved hdecode))

/-- Settles O58: a step is a turn taken and at most one transaction, and either keeps the invariant. -/
theorem stepKeepsTheInvariant : Obligations.StepKeepsTheInvariant := by
  unfold Obligations.StepKeepsTheInvariant
  intro s t hs hstep
  cases hturn : s.schedule with
  | nil =>
    rw [step_of_no_turn hturn] at hstep
    obtain rfl := Host.Outcome.next.inj hstep
    exact hs
  | cons src turns =>
    cases hpending : pending src s with
    | nil =>
      rw [step_of_nothing_pending hturn hpending] at hstep
      obtain rfl := Host.Outcome.next.inj hstep
      exact hs
    | cons x rest =>
      rw [step_of_pending hturn hpending] at hstep
      exact (hs.takeTurn src turns rest).execTxn hstep

end Machine
end Sys2Proof

/-! ### The numbers of the rejections (60_exceptions.md R112) -/

namespace Sys2Proof
namespace Machine

/-- The table of R112 read from its numbers. -/
def rejectOfNumber (code : Byte) : Option RejectCode :=
  match code.toNat with
  | 0x01 => some .framingOverflow
  | 0x02 => some .badLength
  | 0x03 => some .badPrefix
  | 0x04 => some .badSuffix
  | 0x05 => some .checksumMismatch
  | 0x06 => some .unknownVerb
  | 0x07 => some .fieldCount
  | 0x08 => some .malformedNumeric
  | 0x09 => some .outOfRange
  | 0x0A => some .badUnit
  | _ => none

theorem rejectOfNumber_rejectNumber (code : RejectCode) : rejectOfNumber (rejectNumber code) = some code := by
  cases code <;> rfl

theorem rejectNumber_injective : Function.Injective rejectNumber := fun c1 c2 h =>
  Option.some.inj (by rw [← rejectOfNumber_rejectNumber, h, rejectOfNumber_rejectNumber])

/-- Settles O60: the table has an inverse, so no two rejections share a number. -/
theorem rejectionsAreNumberedOneToTen : Obligations.RejectionsAreNumberedOneToTen := by
  unfold Obligations.RejectionsAreNumberedOneToTen
  refine ⟨rfl, rfl, rfl, rfl, rfl, rfl, rfl, rfl, rfl, rfl, fun code => ?_, fun _ _ h => rejectNumber_injective h⟩
  cases code <;> decide

end Machine
end Sys2Proof
